-- ==== Sys2Proof/Word.lean ====
section
/-! DEFINITION. The words of the block: byte, bus address, transaction word (00_scope.md R9, 30_encoding.md R91). -/

namespace Sys2Proof

/-- A bus datum, 8 bits (00_scope.md R9). -/
abbrev Byte := BitVec 8

/-- A bus address, 16 bits (00_scope.md R9). -/
abbrev Addr := BitVec 16

/-- A transaction word, 28 bits (30_encoding.md R91). -/
abbrev TWord := BitVec 28

end Sys2Proof
end

