-- ==== Sys2Proof/Machine/Memory.lean ====
section
/-! DEFINITION. Byte memories as canonical lists of cells: the ROM image, the RAM banks and the save record are each one. -/

namespace Sys2Proof.Machine

/-- A byte memory: (key, byte) pairs, keys strictly rising, no entry equal to `Memory.unlisted`. -/
abbrev Memory := List Host.Cell

/-- What a key without an entry reads as. It is the form's own convention and no claim about hardware: every
content of a memory can be written in this form (DESIGN CHOICE, log 11; for `State.reset` see log 3). -/
def Memory.unlisted : Byte := 0x00

/-- The byte at key `k`. -/
def Memory.read : Memory → Nat → Byte
  | [], _ => Memory.unlisted
  | (k', v) :: m, k => if k = k' then v else Memory.read m k

/-- `(k, v)` in front of `m`, unless `v` is what an unlisted key reads as. -/
def Memory.consCell (k : Nat) (v : Byte) (m : Memory) : Memory :=
  if v = Memory.unlisted then m else (k, v) :: m

/-- Store byte `v` at key `k`, keeping the canonical form. -/
def Memory.write : Memory → Nat → Byte → Memory
  | [], k, v => Memory.consCell k v []
  | (k', v') :: m, k, v =>
    if k < k' then Memory.consCell k v ((k', v') :: m)
    else if k = k' then Memory.consCell k v m
    else (k', v') :: Memory.write m k v

/-- Every key is below `n`. -/
def Memory.within (m : Memory) (n : Nat) : Bool := m.all fun c => c.1 < n

/-- The canonical form: keys strictly rising, no entry equal to `Memory.unlisted`. -/
def Memory.wf : Memory → Bool
  | [] => true
  | (k, v) :: m => v != Memory.unlisted && (m.all fun c => k < c.1) && Memory.wf m

/-- The part of a memory below key `n` (40_cartridge_nobanking.md R124, "retaining only the first 32 KiB"). -/
def Memory.truncate (m : Memory) (n : Nat) : Memory := m.filter fun c => c.1 < n

end Sys2Proof.Machine
end

