-- ==== Sys2Proof/Config.lean ====
section
/-! DEFINITION. The fixed sizes and the construction parameters of the block (00_scope.md R7, R8). -/

namespace Sys2Proof

/-- `CART_VARIANT` (00_scope.md R8): the set is closed (30_encoding.md R110). -/
inductive CartVariant where
  | noBanking
  | bankSwitching
  deriving DecidableEq, Repr

/-- `ROM_OOR` (00_scope.md R8): what a ROM bank select outside `1..N-1` does (41_cartridge_bankswitching.md R147, R148). -/
inductive RomOor where
  | reject
  | clamp
  deriving DecidableEq, Repr

/-- The eight recognized keys, in the order of 30_encoding.md R98. -/
inductive Key where
  | up | down | left | right | a | b | start | select
  deriving DecidableEq, Repr

/-- Where a key lives: row register 0 or 1, bit 0 to 3. -/
structure KeyPos where
  row : Fin 2
  bit : Fin 4
  deriving DecidableEq, Repr

/-- `KEYMAP` (00_scope.md R8), one position for each key. -/
structure KeyMap where
  up : KeyPos
  down : KeyPos
  left : KeyPos
  right : KeyPos
  a : KeyPos
  b : KeyPos
  start : KeyPos
  select : KeyPos
  deriving DecidableEq, Repr

/-- `KEYMAP(k)`. -/
def KeyMap.pos (m : KeyMap) : Key → KeyPos
  | .up => m.up
  | .down => m.down
  | .left => m.left
  | .right => m.right
  | .a => m.a
  | .b => m.b
  | .start => m.start
  | .select => m.select

/-- The named parameters of 00_scope.md R8, fixed at construction. `image` is the kept part of the raw image;
`banks`, `hasRam`, `hasBattery`, `romOor` and `ramInit` matter on the BankSwitching variant only. -/
structure Params where
  variant : CartVariant
  image : Machine.Memory
  /-- `N`, the number of 16 KiB ROM banks. -/
  banks : Nat
  hasRam : Bool
  hasBattery : Bool
  romOor : RomOor
  /-- `RAM_INIT`, keyed by `bank * 0x2000 + offset`. -/
  ramInit : Machine.Memory
  keymatrixAddr : Addr
  selRow0 : Byte
  selRow1 : Byte
  keymap : KeyMap
  ifReset : Byte
  /-- `EXT_MAP`, the addresses claimed by devices outside the block. -/
  extMap : List Addr
  deriving DecidableEq, Repr

namespace Config

/-- A ROM bank is "exactly 16 KiB" (00_scope.md R7). -/
def romBankSize : Nat := 0x4000

/-- A RAM bank is "exactly 8 KiB" (00_scope.md R7). -/
def ramBankSize : Nat := 0x2000

/-- The NoBanking image is "the first 32 KiB" (00_scope.md R7). -/
def noBankingSize : Nat := 0x8000

/-- All four RAM banks: the size of RAM and of a save record (42_persistence.md R171). -/
def ramSize : Nat := 4 * ramBankSize

/-- The default `KEYMAP` (10_state.md R30). PRESUMED: the spec marks it as general knowledge (log 4). -/
def defaultKeyMap : KeyMap where
  right := ⟨0, 0⟩
  left := ⟨0, 1⟩
  up := ⟨0, 2⟩
  down := ⟨0, 3⟩
  a := ⟨1, 0⟩
  b := ⟨1, 1⟩
  select := ⟨1, 2⟩
  start := ⟨1, 3⟩

/-- The parameters of `State.reset` (log 3, log 4): the spec's defaults where it offers one (95_test_vectors.md,
"How to read it"), a BankSwitching cartridge with RAM and battery otherwise. No statement about all states rests on them. -/
def defaultParams : Params where
  variant := .bankSwitching
  image := []
  banks := 8
  hasRam := true
  hasBattery := true
  romOor := .reject
  ramInit := []
  keymatrixAddr := 0xFF00
  selRow0 := 0x20
  selRow1 := 0x10
  keymap := defaultKeyMap
  ifReset := 0x00
  extMap := []

end Config

/-- The number of image bytes the cartridge keeps (10_state.md R37). -/
def Params.imageSize (p : Params) : Nat :=
  match p.variant with
  | .noBanking => Config.noBankingSize
  | .bankSwitching => p.banks * Config.romBankSize

end Sys2Proof
end

