-- ==== Sys2Proof/Syntax.lean ====
section
/-! DEFINITION. The operations of the block: one constructor for each row of spec/opcode_table.json, in the table's order. -/

namespace Sys2Proof

/-- One operation of the block. A constructor holds the fields its kind takes (30_encoding.md R92), less those its
row fixes. -/
inductive Instr where
  /-- `BUSRD.KM` -/
  | busrdKm
  /-- `BUSRD.IF` -/
  | busrdIf
  /-- `BUSRD.IE` -/
  | busrdIe
  /-- `BUSRD.CART.ROM` -/
  | busrdCartRom (addr : Addr)
  /-- `BUSRD.CART.RAM` -/
  | busrdCartRam (addr : Addr)
  /-- `BUSRD.UNCLAIMED.LO` -/
  | busrdUnclaimedLo (addr : Addr)
  /-- `BUSRD.UNCLAIMED.HI` -/
  | busrdUnclaimedHi (addr : Addr)
  /-- `BUSWR.KM` -/
  | buswrKm (data : Byte)
  /-- `BUSWR.IF` -/
  | buswrIf (data : Byte)
  /-- `BUSWR.IE` -/
  | buswrIe (data : Byte)
  /-- `BUSWR.CART.ROM` -/
  | buswrCartRom (addr : Addr) (data : Byte)
  /-- `BUSWR.CART.RAM` -/
  | buswrCartRam (addr : Addr) (data : Byte)
  /-- `BUSWR.UNCLAIMED.LO` -/
  | buswrUnclaimedLo (addr : Addr) (data : Byte)
  /-- `BUSWR.UNCLAIMED.HI` -/
  | buswrUnclaimedHi (addr : Addr) (data : Byte)
  /-- `KEY.up` -/
  | keyUp
  /-- `KEY.down` -/
  | keyDown
  /-- `KEY.left` -/
  | keyLeft
  /-- `KEY.right` -/
  | keyRight
  /-- `KEY.a` -/
  | keyA
  /-- `KEY.b` -/
  | keyB
  /-- `KEY.start` -/
  | keyStart
  /-- `KEY.select` -/
  | keySelect
  /-- `KEY.unrecognized`, with its code `0x8..0xF` -/
  | keyUnrecognized (code : BitVec 4)
  /-- `TICK` -/
  | tick
  /-- `RESET` -/
  | reset
  /-- `SAVE` -/
  | save
  /-- `LOAD` -/
  | load
  /-- `IRQREQ` -/
  | irqreq (mask : Byte)
  /-- `IFCLR` -/
  | ifclr (mask : Byte)
  /-- `IFRD` -/
  | ifrd
  /-- `CARTRD.NB.ROM` -/
  | cartrdNbRom (addr : Addr)
  /-- `CARTRD.NB.FATAL` -/
  | cartrdNbFatal (addr : Addr)
  /-- `CARTRD.BS.BANK0` -/
  | cartrdBsBank0 (addr : Addr)
  /-- `CARTRD.BS.WINDOW` -/
  | cartrdBsWindow (addr : Addr)
  /-- `CARTRD.BS.RAM` -/
  | cartrdBsRam (addr : Addr)
  /-- `CARTRD.BS.OPEN.LO` -/
  | cartrdBsOpenLo (addr : Addr)
  /-- `CARTRD.BS.OPEN.HI` -/
  | cartrdBsOpenHi (addr : Addr)
  /-- `CARTWR.NB` -/
  | cartwrNb (addr : Addr) (data : Byte)
  /-- `CARTWR.BS.RAMEN` -/
  | cartwrBsRamen (addr : Addr) (data : Byte)
  /-- `CARTWR.BS.ROMSEL` -/
  | cartwrBsRomsel (addr : Addr) (data : Byte)
  /-- `CARTWR.BS.RAMSEL` -/
  | cartwrBsRamsel (addr : Addr) (data : Byte)
  /-- `CARTWR.BS.NONE6` -/
  | cartwrBsNone6 (addr : Addr) (data : Byte)
  /-- `CARTWR.BS.NONE.LO` -/
  | cartwrBsNoneLo (addr : Addr) (data : Byte)
  /-- `CARTWR.BS.RAM` -/
  | cartwrBsRam (addr : Addr) (data : Byte)
  /-- `CARTWR.BS.NONE.HI` -/
  | cartwrBsNoneHi (addr : Addr) (data : Byte)
  /-- `KMRD` -/
  | kmrd (addr : Addr)
  /-- `KMWR` -/
  | kmwr (addr : Addr) (data : Byte)
  /-- `INVALID`, with bit 24 of its kind (`0xE` or `0xF`): the verdict on a word that encodes no operation -/
  | invalid (kindBit : BitVec 1)
  deriving DecidableEq, Repr

/-- The recognized key an operation delivers, if it is one (44_keymatrix.md R207). -/
def Instr.pressedKey : Instr → Option Key
  | .keyUp => some .up
  | .keyDown => some .down
  | .keyLeft => some .left
  | .keyRight => some .right
  | .keyA => some .a
  | .keyB => some .b
  | .keyStart => some .start
  | .keySelect => some .select
  | _ => none

end Sys2Proof
end

