-- ==== Sys2Proof/WellFormed.lean ====
section
/-! DEFINITION. When an operation is one the table has a row for: the address lies in its row's range, the row exists
for the cartridge variant, a key code is unrecognized (30_encoding.md R94 to R98, R102). -/

namespace Sys2Proof

/-- One of the three exact addresses of the router (30_encoding.md R97, priority 1). -/
def exactAddress (p : Params) (a : Addr) : Bool :=
  a == p.keymatrixAddr || a == 0xFF0F#16 || a == 0xFFFF#16

/-- The operation has a row of spec/opcode_table.json under the parameters `p`. -/
def Instr.wellFormed (p : Params) : Instr → Bool
  | .busrdKm | .busrdIf | .busrdIe | .buswrKm _ | .buswrIf _ | .buswrIe _ => true
  | .busrdCartRom a | .buswrCartRom a _ => a &&& 0x8000 == 0x0000 && !exactAddress p a
  | .busrdCartRam a | .buswrCartRam a _ => a &&& 0xE000 == 0xA000 && !exactAddress p a
  | .busrdUnclaimedLo a | .buswrUnclaimedLo a _ => a &&& 0xE000 == 0x8000 && !exactAddress p a
  | .busrdUnclaimedHi a | .buswrUnclaimedHi a _ => a &&& 0xC000 == 0xC000 && !exactAddress p a
  | .keyUp | .keyDown | .keyLeft | .keyRight | .keyA | .keyB | .keyStart | .keySelect => true
  | .keyUnrecognized c => c &&& 0x8 == 0x8
  | .tick | .reset | .save | .load | .irqreq _ | .ifclr _ | .ifrd => true
  | .cartrdNbRom a => p.variant == .noBanking && a &&& 0x8000 == 0x0000
  | .cartrdNbFatal a => p.variant == .noBanking && a &&& 0x8000 == 0x8000
  | .cartrdBsBank0 a => p.variant == .bankSwitching && a &&& 0xC000 == 0x0000
  | .cartrdBsWindow a => p.variant == .bankSwitching && a &&& 0xC000 == 0x4000
  | .cartrdBsRam a => p.variant == .bankSwitching && a &&& 0xE000 == 0xA000
  | .cartrdBsOpenLo a => p.variant == .bankSwitching && a &&& 0xE000 == 0x8000
  | .cartrdBsOpenHi a => p.variant == .bankSwitching && a &&& 0xC000 == 0xC000
  | .cartwrNb _ _ => p.variant == .noBanking
  | .cartwrBsRamen a _ => p.variant == .bankSwitching && a &&& 0xE000 == 0x0000
  | .cartwrBsRomsel a _ => p.variant == .bankSwitching && a &&& 0xE000 == 0x2000
  | .cartwrBsRamsel a _ => p.variant == .bankSwitching && a &&& 0xE000 == 0x4000
  | .cartwrBsNone6 a _ => p.variant == .bankSwitching && a &&& 0xE000 == 0x6000
  | .cartwrBsNoneLo a _ => p.variant == .bankSwitching && a &&& 0xE000 == 0x8000
  | .cartwrBsRam a _ => p.variant == .bankSwitching && a &&& 0xE000 == 0xA000
  | .cartwrBsNoneHi a _ => p.variant == .bankSwitching && a &&& 0xC000 == 0xC000
  | .kmrd _ | .kmwr _ _ | .invalid _ => true

end Sys2Proof
end

