-- ==== Sys2Proof/Decode.lean ====
section
/-! DEFINITION. Decoding a transaction word into an operation, encoding an operation as a word, the opcode table as a
list of rows, and the key tokens (30_encoding.md R91 to R102, R108). -/

namespace Sys2Proof

/-! ### The fields of a word (30_encoding.md R91) -/

/-- `T[27:24]`. -/
def kindOf (w : TWord) : BitVec 4 := w.extractLsb' 24 4

/-- `T[23:8]`. -/
def addrOf (w : TWord) : Addr := w.extractLsb' 8 16

/-- `T[7:0]`. -/
def dataOf (w : TWord) : Byte := w.extractLsb' 0 8

/-- `kind ++ addr ++ data`. -/
def word (kind : BitVec 4) (addr : Addr) (data : Byte) : TWord := kind ++ addr ++ data

/-! ### Decoding -/

/-- The router's decode of a read, in priority order (30_encoding.md R97). -/
def decodeBusRead (p : Params) (a : Addr) : Instr :=
  if a = p.keymatrixAddr then .busrdKm
  else if a = 0xFF0F then .busrdIf
  else if a = 0xFFFF then .busrdIe
  else if a &&& 0x8000 = 0x0000 then .busrdCartRom a
  else if a &&& 0xE000 = 0xA000 then .busrdCartRam a
  else if a &&& 0xE000 = 0x8000 then .busrdUnclaimedLo a
  else .busrdUnclaimedHi a

/-- The router's decode of a write, in priority order (30_encoding.md R97). -/
def decodeBusWrite (p : Params) (a : Addr) (v : Byte) : Instr :=
  if a = p.keymatrixAddr then .buswrKm v
  else if a = 0xFF0F then .buswrIf v
  else if a = 0xFFFF then .buswrIe v
  else if a &&& 0x8000 = 0x0000 then .buswrCartRom a v
  else if a &&& 0xE000 = 0xA000 then .buswrCartRam a v
  else if a &&& 0xE000 = 0x8000 then .buswrUnclaimedLo a v
  else .buswrUnclaimedHi a v

/-- A key code, `data[3:0]` (30_encoding.md R98). -/
def decodeKey (code : BitVec 4) : Instr :=
  match code.toNat with
  | 0 => .keyUp
  | 1 => .keyDown
  | 2 => .keyLeft
  | 3 => .keyRight
  | 4 => .keyA
  | 5 => .keyB
  | 6 => .keyStart
  | 7 => .keySelect
  | _ => .keyUnrecognized code

/-- The cartridge's decode of a read (30_encoding.md R95, R96). -/
def decodeCartRead (p : Params) (a : Addr) : Instr :=
  match p.variant with
  | .noBanking => if a &&& 0x8000 = 0x0000 then .cartrdNbRom a else .cartrdNbFatal a
  | .bankSwitching =>
    if a &&& 0xC000 = 0x0000 then .cartrdBsBank0 a
    else if a &&& 0xC000 = 0x4000 then .cartrdBsWindow a
    else if a &&& 0xE000 = 0xA000 then .cartrdBsRam a
    else if a &&& 0xE000 = 0x8000 then .cartrdBsOpenLo a
    else .cartrdBsOpenHi a

/-- The cartridge's decode of a write (30_encoding.md R94, R96). -/
def decodeCartWrite (p : Params) (a : Addr) (v : Byte) : Instr :=
  match p.variant with
  | .noBanking => .cartwrNb a v
  | .bankSwitching =>
    if a &&& 0xE000 = 0x0000 then .cartwrBsRamen a v
    else if a &&& 0xE000 = 0x2000 then .cartwrBsRomsel a v
    else if a &&& 0xE000 = 0x4000 then .cartwrBsRamsel a v
    else if a &&& 0xE000 = 0x6000 then .cartwrBsNone6 a v
    else if a &&& 0xE000 = 0x8000 then .cartwrBsNoneLo a v
    else if a &&& 0xE000 = 0xA000 then .cartwrBsRam a v
    else .cartwrBsNoneHi a v

/-- The operation of a 28-bit word, total (30_encoding.md R92, R108). A field the kind does not take is ignored. -/
def decode (p : Params) (w : TWord) : Instr :=
  match (kindOf w).toNat with
  | 0x0 => decodeBusRead p (addrOf w)
  | 0x1 => decodeBusWrite p (addrOf w) (dataOf w)
  | 0x2 => decodeKey (w.extractLsb' 0 4)
  | 0x3 => .tick
  | 0x4 => .reset
  | 0x5 => .save
  | 0x6 => .load
  | 0x7 => .irqreq (dataOf w)
  | 0x8 => .ifclr (dataOf w)
  | 0x9 => .ifrd
  | 0xA => decodeCartRead p (addrOf w)
  | 0xB => decodeCartWrite p (addrOf w) (dataOf w)
  | 0xC => .kmrd (addrOf w)
  | 0xD => .kmwr (addrOf w) (dataOf w)
  | _ => .invalid (w.extractLsb' 24 1)

/-- Why a number is no transaction word. -/
inductive DecodeReject where
  /-- It has a bit above bit 27: a word is 28 bits (30_encoding.md R91). Safe: nothing is performed. -/
  | notTransactionWord (n : Nat)
  deriving DecidableEq, Repr

/-- Decoding of any number, rejecting by name what does not fit in 28 bits (log 10). -/
def decodeNat (p : Params) (n : Nat) : Except DecodeReject Instr :=
  if n < 2 ^ 28 then .ok (decode p (BitVec.ofNat 28 n)) else .error (.notTransactionWord n)

/-- What the decoder of `State.reset`'s block reads from the table word `w` (see log 4 for its parameters). -/
def decodeTableWord (_nbits w : Nat) : Option Instr :=
  match decodeNat Config.defaultParams w with
  | .ok i => some i
  | .error _ => none

/-! ### Encoding (30_encoding.md R92, R111) -/

/-- The kind of an operation. -/
def Instr.kind : Instr → BitVec 4
  | .busrdKm | .busrdIf | .busrdIe | .busrdCartRom _ | .busrdCartRam _ | .busrdUnclaimedLo _ | .busrdUnclaimedHi _ => 0x0
  | .buswrKm _ | .buswrIf _ | .buswrIe _ | .buswrCartRom _ _ | .buswrCartRam _ _ | .buswrUnclaimedLo _ _
  | .buswrUnclaimedHi _ _ => 0x1
  | .keyUp | .keyDown | .keyLeft | .keyRight | .keyA | .keyB | .keyStart | .keySelect | .keyUnrecognized _ => 0x2
  | .tick => 0x3
  | .reset => 0x4
  | .save => 0x5
  | .load => 0x6
  | .irqreq _ => 0x7
  | .ifclr _ => 0x8
  | .ifrd => 0x9
  | .cartrdNbRom _ | .cartrdNbFatal _ | .cartrdBsBank0 _ | .cartrdBsWindow _ | .cartrdBsRam _ | .cartrdBsOpenLo _
  | .cartrdBsOpenHi _ => 0xA
  | .cartwrNb _ _ | .cartwrBsRamen _ _ | .cartwrBsRomsel _ _ | .cartwrBsRamsel _ _ | .cartwrBsNone6 _ _
  | .cartwrBsNoneLo _ _ | .cartwrBsRam _ _ | .cartwrBsNoneHi _ _ => 0xB
  | .kmrd _ => 0xC
  | .kmwr _ _ => 0xD
  | .invalid k => 0b111#3 ++ k

/-- The word of an operation; a field the kind does not take is zero. -/
def encode (p : Params) : Instr → TWord
  | .busrdKm => word 0x0 p.keymatrixAddr 0x00
  | .busrdIf => word 0x0 0xFF0F 0x00
  | .busrdIe => word 0x0 0xFFFF 0x00
  | .busrdCartRom a => word 0x0 a 0x00
  | .busrdCartRam a => word 0x0 a 0x00
  | .busrdUnclaimedLo a => word 0x0 a 0x00
  | .busrdUnclaimedHi a => word 0x0 a 0x00
  | .buswrKm v => word 0x1 p.keymatrixAddr v
  | .buswrIf v => word 0x1 0xFF0F v
  | .buswrIe v => word 0x1 0xFFFF v
  | .buswrCartRom a v => word 0x1 a v
  | .buswrCartRam a v => word 0x1 a v
  | .buswrUnclaimedLo a v => word 0x1 a v
  | .buswrUnclaimedHi a v => word 0x1 a v
  | .keyUp => word 0x2 0x0000 0x00
  | .keyDown => word 0x2 0x0000 0x01
  | .keyLeft => word 0x2 0x0000 0x02
  | .keyRight => word 0x2 0x0000 0x03
  | .keyA => word 0x2 0x0000 0x04
  | .keyB => word 0x2 0x0000 0x05
  | .keyStart => word 0x2 0x0000 0x06
  | .keySelect => word 0x2 0x0000 0x07
  | .keyUnrecognized c => word 0x2 0x0000 (c.setWidth 8)
  | .tick => word 0x3 0x0000 0x00
  | .reset => word 0x4 0x0000 0x00
  | .save => word 0x5 0x0000 0x00
  | .load => word 0x6 0x0000 0x00
  | .irqreq m => word 0x7 0x0000 m
  | .ifclr m => word 0x8 0x0000 m
  | .ifrd => word 0x9 0x0000 0x00
  | .cartrdNbRom a => word 0xA a 0x00
  | .cartrdNbFatal a => word 0xA a 0x00
  | .cartrdBsBank0 a => word 0xA a 0x00
  | .cartrdBsWindow a => word 0xA a 0x00
  | .cartrdBsRam a => word 0xA a 0x00
  | .cartrdBsOpenLo a => word 0xA a 0x00
  | .cartrdBsOpenHi a => word 0xA a 0x00
  | .cartwrNb a v => word 0xB a v
  | .cartwrBsRamen a v => word 0xB a v
  | .cartwrBsRomsel a v => word 0xB a v
  | .cartwrBsRamsel a v => word 0xB a v
  | .cartwrBsNone6 a v => word 0xB a v
  | .cartwrBsNoneLo a v => word 0xB a v
  | .cartwrBsRam a v => word 0xB a v
  | .cartwrBsNoneHi a v => word 0xB a v
  | .kmrd a => word 0xC a 0x00
  | .kmwr a v => word 0xD a v
  | .invalid k => word (0b111#3 ++ k) 0x0000 0x00

/-- The bits of a word that its kind takes (30_encoding.md R92, R98); the decoder ignores the others. -/
def takenBits (kind : BitVec 4) : TWord :=
  match kind.toNat with
  | 0x0 | 0xA | 0xC => word 0xF 0xFFFF 0x00
  | 0x1 | 0xB | 0xD => word 0xF 0xFFFF 0xFF
  | 0x2 => word 0xF 0x0000 0x0F
  | 0x7 | 0x8 => word 0xF 0x0000 0xFF
  | _ => word 0xF 0x0000 0x00

/-! ### The opcode table (30_encoding.md R102) -/

/-- One row of spec/opcode_table.json. A word `T` matches the row when `T & mask = pattern`. -/
structure OpcodeRow where
  /-- The row's place in spec/opcode_table.json, from 0. -/
  index : Nat
  mask : TWord
  pattern : TWord
  /-- Among the rows a word matches, the one with the smallest priority is selected. -/
  priority : Nat
  /-- The variant for which the row exists; `none` for both. -/
  variant : Option CartVariant
  deriving DecidableEq, Repr

/-- The rows of `BUSRD` and `BUSWR`, kinds `0x0` and `0x1`. -/
def routerRows (p : Params) : List OpcodeRow := [
  ⟨0, word 0xF 0xFFFF 0x00, word 0x0 p.keymatrixAddr 0x00, 1, none⟩,
  ⟨1, word 0xF 0xFFFF 0x00, word 0x0 0xFF0F 0x00, 1, none⟩,
  ⟨2, word 0xF 0xFFFF 0x00, word 0x0 0xFFFF 0x00, 1, none⟩,
  ⟨3, word 0xF 0x8000 0x00, word 0x0 0x0000 0x00, 2, none⟩,
  ⟨4, word 0xF 0xE000 0x00, word 0x0 0xA000 0x00, 2, none⟩,
  ⟨5, word 0xF 0xE000 0x00, word 0x0 0x8000 0x00, 3, none⟩,
  ⟨6, word 0xF 0xC000 0x00, word 0x0 0xC000 0x00, 3, none⟩,
  ⟨7, word 0xF 0xFFFF 0x00, word 0x1 p.keymatrixAddr 0x00, 1, none⟩,
  ⟨8, word 0xF 0xFFFF 0x00, word 0x1 0xFF0F 0x00, 1, none⟩,
  ⟨9, word 0xF 0xFFFF 0x00, word 0x1 0xFFFF 0x00, 1, none⟩,
  ⟨10, word 0xF 0x8000 0x00, word 0x1 0x0000 0x00, 2, none⟩,
  ⟨11, word 0xF 0xE000 0x00, word 0x1 0xA000 0x00, 2, none⟩,
  ⟨12, word 0xF 0xE000 0x00, word 0x1 0x8000 0x00, 3, none⟩,
  ⟨13, word 0xF 0xC000 0x00, word 0x1 0xC000 0x00, 3, none⟩]

/-- The rows of kinds `0x2` to `0x9`. -/
def eventRows : List OpcodeRow := [
  ⟨14, word 0xF 0x0000 0x0F, word 0x2 0x0000 0x00, 0, none⟩,
  ⟨15, word 0xF 0x0000 0x0F, word 0x2 0x0000 0x01, 0, none⟩,
  ⟨16, word 0xF 0x0000 0x0F, word 0x2 0x0000 0x02, 0, none⟩,
  ⟨17, word 0xF 0x0000 0x0F, word 0x2 0x0000 0x03, 0, none⟩,
  ⟨18, word 0xF 0x0000 0x0F, word 0x2 0x0000 0x04, 0, none⟩,
  ⟨19, word 0xF 0x0000 0x0F, word 0x2 0x0000 0x05, 0, none⟩,
  ⟨20, word 0xF 0x0000 0x0F, word 0x2 0x0000 0x06, 0, none⟩,
  ⟨21, word 0xF 0x0000 0x0F, word 0x2 0x0000 0x07, 0, none⟩,
  ⟨22, word 0xF 0x0000 0x08, word 0x2 0x0000 0x08, 0, none⟩,
  ⟨23, word 0xF 0x0000 0x00, word 0x3 0x0000 0x00, 0, none⟩,
  ⟨24, word 0xF 0x0000 0x00, word 0x4 0x0000 0x00, 0, none⟩,
  ⟨25, word 0xF 0x0000 0x00, word 0x5 0x0000 0x00, 0, none⟩,
  ⟨26, word 0xF 0x0000 0x00, word 0x6 0x0000 0x00, 0, none⟩,
  ⟨27, word 0xF 0x0000 0x00, word 0x7 0x0000 0x00, 0, none⟩,
  ⟨28, word 0xF 0x0000 0x00, word 0x8 0x0000 0x00, 0, none⟩,
  ⟨29, word 0xF 0x0000 0x00, word 0x9 0x0000 0x00, 0, none⟩]

/-- The rows of kinds `0xA` and above. -/
def deviceRows : List OpcodeRow := [
  ⟨30, word 0xF 0x8000 0x00, word 0xA 0x0000 0x00, 0, some .noBanking⟩,
  ⟨31, word 0xF 0x8000 0x00, word 0xA 0x8000 0x00, 0, some .noBanking⟩,
  ⟨32, word 0xF 0xC000 0x00, word 0xA 0x0000 0x00, 0, some .bankSwitching⟩,
  ⟨33, word 0xF 0xC000 0x00, word 0xA 0x4000 0x00, 0, some .bankSwitching⟩,
  ⟨34, word 0xF 0xE000 0x00, word 0xA 0xA000 0x00, 0, some .bankSwitching⟩,
  ⟨35, word 0xF 0xE000 0x00, word 0xA 0x8000 0x00, 0, some .bankSwitching⟩,
  ⟨36, word 0xF 0xC000 0x00, word 0xA 0xC000 0x00, 0, some .bankSwitching⟩,
  ⟨37, word 0xF 0x0000 0x00, word 0xB 0x0000 0x00, 0, some .noBanking⟩,
  ⟨38, word 0xF 0xE000 0x00, word 0xB 0x0000 0x00, 0, some .bankSwitching⟩,
  ⟨39, word 0xF 0xE000 0x00, word 0xB 0x2000 0x00, 0, some .bankSwitching⟩,
  ⟨40, word 0xF 0xE000 0x00, word 0xB 0x4000 0x00, 0, some .bankSwitching⟩,
  ⟨41, word 0xF 0xE000 0x00, word 0xB 0x6000 0x00, 0, some .bankSwitching⟩,
  ⟨42, word 0xF 0xE000 0x00, word 0xB 0x8000 0x00, 0, some .bankSwitching⟩,
  ⟨43, word 0xF 0xE000 0x00, word 0xB 0xA000 0x00, 0, some .bankSwitching⟩,
  ⟨44, word 0xF 0xC000 0x00, word 0xB 0xC000 0x00, 0, some .bankSwitching⟩,
  ⟨45, word 0xF 0x0000 0x00, word 0xC 0x0000 0x00, 0, none⟩,
  ⟨46, word 0xF 0x0000 0x00, word 0xD 0x0000 0x00, 0, none⟩,
  ⟨47, word 0xE 0x0000 0x00, word 0xE 0x0000 0x00, 0, none⟩]

/-- The 48 rows of spec/opcode_table.json, the KeyMatrix rows at `KEYMATRIX_ADDR`. -/
def opcodeRows (p : Params) : List OpcodeRow := routerRows p ++ eventRows ++ deviceRows

/-- The word matches the row, and the row exists for the variant. -/
def OpcodeRow.matchesWord (p : Params) (w : TWord) (r : OpcodeRow) : Bool :=
  (w &&& r.mask == r.pattern) && (r.variant == none || r.variant == some p.variant)

/-- The rows a word selects: of those it matches, the ones of smallest priority (30_encoding.md R102). -/
def selectedRows (p : Params) (w : TWord) : List OpcodeRow :=
  let hits := (opcodeRows p).filter (OpcodeRow.matchesWord p w)
  hits.filter fun r => hits.all fun r' => r.priority ≤ r'.priority

/-- The place of an operation's row in spec/opcode_table.json, from 0. -/
def Instr.rowIndex : Instr → Nat
  | .busrdKm => 0
  | .busrdIf => 1
  | .busrdIe => 2
  | .busrdCartRom _ => 3
  | .busrdCartRam _ => 4
  | .busrdUnclaimedLo _ => 5
  | .busrdUnclaimedHi _ => 6
  | .buswrKm _ => 7
  | .buswrIf _ => 8
  | .buswrIe _ => 9
  | .buswrCartRom _ _ => 10
  | .buswrCartRam _ _ => 11
  | .buswrUnclaimedLo _ _ => 12
  | .buswrUnclaimedHi _ _ => 13
  | .keyUp => 14
  | .keyDown => 15
  | .keyLeft => 16
  | .keyRight => 17
  | .keyA => 18
  | .keyB => 19
  | .keyStart => 20
  | .keySelect => 21
  | .keyUnrecognized _ => 22
  | .tick => 23
  | .reset => 24
  | .save => 25
  | .load => 26
  | .irqreq _ => 27
  | .ifclr _ => 28
  | .ifrd => 29
  | .cartrdNbRom _ => 30
  | .cartrdNbFatal _ => 31
  | .cartrdBsBank0 _ => 32
  | .cartrdBsWindow _ => 33
  | .cartrdBsRam _ => 34
  | .cartrdBsOpenLo _ => 35
  | .cartrdBsOpenHi _ => 36
  | .cartwrNb _ _ => 37
  | .cartwrBsRamen _ _ => 38
  | .cartwrBsRomsel _ _ => 39
  | .cartwrBsRamsel _ _ => 40
  | .cartwrBsNone6 _ _ => 41
  | .cartwrBsNoneLo _ _ => 42
  | .cartwrBsRam _ _ => 43
  | .cartwrBsNoneHi _ _ => 44
  | .kmrd _ => 45
  | .kmwr _ _ => 46
  | .invalid _ => 47

/-! ### Key tokens (30_encoding.md R98) -/

/-- The 4-bit code of a key token of the wire protocol; every other token has the canonical unrecognized code `0x8`. -/
def keyCodeOfToken (token : List Char) : BitVec 4 :=
  if token = ['u', 'p'] then 0x0
  else if token = ['d', 'o', 'w', 'n'] then 0x1
  else if token = ['l', 'e', 'f', 't'] then 0x2
  else if token = ['r', 'i', 'g', 'h', 't'] then 0x3
  else if token = ['a'] then 0x4
  else if token = ['b'] then 0x5
  else if token = ['s', 't', 'a', 'r', 't'] then 0x6
  else if token = ['s', 'e', 'l', 'e', 'c', 't'] then 0x7
  else 0x8

end Sys2Proof
end

