-- ==== Sys2Proof/Machine/State.lean ====
section
/-! DEFINITION. The state of the block (10_state.md R20), its reasons to stop, and its power-on value (R40). -/

namespace Sys2Proof.Machine

/-- The reasons of the block's one fatal error (60_exceptions.md R271). -/
inductive FatalReason where
  /-- A NoBanking read at `0x8000` or above (40_cartridge_nobanking.md R122). -/
  | noBankingReadOutOfRange
  deriving DecidableEq, Repr

/-- What a fatal error records: the reason and the offending address (60_exceptions.md R271). -/
structure FatalRecord where
  reason : FatalReason
  addr : Addr
  deriving DecidableEq, Repr

/-- The classes of the error taxonomy (60_exceptions.md R270). -/
inductive ErrorClass where
  | programmerError
  | silentNoOp
  | persistenceError
  | transportError
  deriving DecidableEq, Repr

/-- What an operation hands back at its port (30_encoding.md R92, "returns"; 00_scope.md R13). -/
inductive Response where
  /-- Nothing is returned: writes, events, a fatal read. -/
  | nothing
  /-- The byte of a read. -/
  | byte (b : Byte)
  /-- `ok` of `SAVE` or `LOAD`. -/
  | ok
  /-- `error(...)` of `SAVE` or `LOAD`. -/
  | error (c : ErrorClass)
  /-- The decoder's verdict on a word that is no operation (30_encoding.md R108). -/
  | invalid
  deriving DecidableEq, Repr

/-- An access the router hands to the external port (20_memory.md R62). -/
inductive ExtAccess where
  | read (addr : Addr)
  | write (addr : Addr) (data : Byte)
  deriving DecidableEq, Repr

/-- What the last operation put out: its response, and its access to the external port if it made one (log 6). -/
structure Output where
  response : Response
  ext : Option ExtAccess
  deriving DecidableEq, Repr

/-- The draws of one operation, free inputs from outside the block (log 5): whether the store's call fails
(42_persistence.md R170) and the byte an external device answers (46_bus_router.md R244). -/
structure Draws where
  saveFails : Bool
  loadFails : Bool
  extRead : Byte
  deriving DecidableEq, Repr

/-- A transaction word that has arrived, with the draws its operation will use (log 1, log 5). -/
structure Request where
  word : TWord
  draws : Draws
  deriving DecidableEq, Repr

/-- The state: the parameters fixed at construction (00_scope.md R8), the tuple of 10_state.md R20, and three fields
of the model's own (`inbox`, `draws`, `out`). -/
structure State where
  /-- The construction parameters; no step changes them (log 2). -/
  params : Params
  /-- `rom_sel` (10_state.md R24). -/
  romSel : BitVec 7
  /-- `ram_sel` (10_state.md R25). -/
  ramSel : BitVec 2
  /-- `ram_en` (10_state.md R26). -/
  ramEn : Bool
  /-- `ram[b][k]` at key `b * 0x2000 + k` (10_state.md R38); empty when there is no RAM. -/
  ram : Memory
  /-- `col_sel` (10_state.md R28). -/
  colSel : Byte
  /-- `row[0]` (10_state.md R29). -/
  row0 : BitVec 4
  /-- `row[1]` (10_state.md R29). -/
  row1 : BitVec 4
  /-- `IF` (10_state.md R31). -/
  ifReg : Byte
  /-- `IE` (10_state.md R32). -/
  ieReg : Byte
  /-- `store`, the save record, keyed as `ram` (10_state.md R35). -/
  store : Option Memory
  /-- `fault` (10_state.md R34). -/
  fault : Option FatalRecord
  /-- The model's own: words that have arrived and are not performed yet, in the total order of 20_memory.md R70. -/
  inbox : List Request
  /-- The model's own: the draws of the operation being performed. -/
  draws : Draws
  /-- The model's own: what the last operation put out. -/
  out : Output
  deriving DecidableEq, Repr

/-- The reasons a step faults. -/
inductive Fault where
  /-- A cartridge read at an image offset the image does not hold; raised by `readImage`. The spec gives no value for
  it (92_eei_decisions.md D13), and no state of the invariant (10_state.md R23) reaches it. Safe. -/
  | imageOffset (offset : Nat)
  deriving DecidableEq, Repr

/-- The reasons a step is refused. -/
inductive Refusal where
  /-- `exec` has no meaning for the instruction yet; raised by `exec` alone. Safe. -/
  | notModelled (mnemonic : String)
  /-- The block is terminal after a fatal error: "every operation on a faulted state is refused"
  (60_exceptions.md R272); raised by `whileRunning`. Safe. -/
  | terminated (record : FatalRecord)
  deriving DecidableEq, Repr

/-- Power-on (10_state.md R40, 70_reset_and_hazards.md R300): construction from the parameters, with the store as the host
holds it and `IE` unspecified, so that both are arguments. `rom_sel = 1` is the spec's decision D11. -/
def State.powerOn (p : Params) (store : Option Memory) (ie : Byte) : State where
  params := p
  romSel := 1
  ramSel := 0
  ramEn := p.hasRam
  ram := if p.hasRam then p.ramInit else []
  colSel := 0x00
  row0 := 0xF
  row1 := 0xF
  ifReg := p.ifReset
  ieReg := ie
  store := store
  fault := none
  inbox := []
  draws := ⟨false, false, 0x00⟩
  out := ⟨.nothing, none⟩

/-- The block after power-on with the parameters of log 4, `IE = 0x00` and no save record (log 3). -/
def State.reset : State := State.powerOn Config.defaultParams none 0x00

end Sys2Proof.Machine
end

