-- ==== Sys2Proof/Machine/Operands.lean ====
section
/-! DEFINITION. The operand forms: the sub-fields of a datum and the offsets of an address (30_encoding.md R93), the
address ranges (20_memory.md R61), and the bank-to-memory translation (20_memory.md R66). -/

namespace Sys2Proof.Machine

/-! ### Sub-fields of a datum (30_encoding.md R93) -/

/-- `data & 0x7F`, the ROM bank number. -/
def romBankField (v : Byte) : BitVec 7 := (v &&& 0x7F).setWidth 7

/-- `data & 0x03`, the RAM bank number. -/
def ramBankField (v : Byte) : BitVec 2 := (v &&& 0x03).setWidth 2

/-- `data & 0x30`, the column select (30_encoding.md R100). -/
def columnField (v : Byte) : Byte := v &&& 0x30

/-! ### Offsets of an address (30_encoding.md R93) -/

/-- `addr - 0x4000`, an offset into the window's 16 KiB. -/
def windowOffset (a : Addr) : BitVec 14 := (a - 0x4000).setWidth 14

/-- `addr - 0xA000`, an offset into a RAM bank's 8 KiB. -/
def ramOffset (a : Addr) : BitVec 13 := (a - 0xA000).setWidth 13

/-! ### Ranges (20_memory.md R61; inclusive at both ends) -/

/-- `0xA000 <= a <= 0xBFFF`, the RAM window. -/
def inRamWindow (a : Addr) : Bool := 0xA000#16 ≤ a && a ≤ 0xBFFF#16

/-- The addresses the router sends to the cartridge (46_bus_router.md R241). -/
def routedToCart (a : Addr) : Bool := a ≤ 0x7FFF#16 || inRamWindow a

/-! ### Translation (20_memory.md R66) -/

/-- The image offset behind a window address: `rom_sel * 0x4000 + (addr - 0x4000)`. -/
def windowImageOffset (romSel : BitVec 7) (a : Addr) : Nat :=
  romSel.toNat * Config.romBankSize + (windowOffset a).toNat

/-- The key of `ram[bank][offset]`: banks in ascending number, bytes in ascending offset (42_persistence.md R171). -/
def ramKey (bank : BitVec 2) (offset : BitVec 13) : Nat :=
  bank.toNat * Config.ramBankSize + offset.toNat

end Sys2Proof.Machine
end

