-- ==== Sys2Proof/Machine/Flags.lean ====
section
/-! DEFINITION. The single bits of the block: the RAM enable flag, the interrupt request bits, the key bits. There is no
arithmetic flag (10_state.md R22). -/

namespace Sys2Proof.Machine

/-- A write datum enables RAM exactly when its low nibble is `0xA` (30_encoding.md R101). -/
def enablesRam (v : Byte) : Bool := v &&& 0x0F == 0x0A

/-! ### Interrupt request masks (30_encoding.md R99) -/

/-- v-blank -/
def maskVBlank : Byte := 0x01

/-- LCD -/
def maskLcd : Byte := 0x02

/-- timer overflow -/
def maskTimer : Byte := 0x04

/-- joypad, the only mask this block raises itself (43_peripheral_interrupt_sink.md R195) -/
def maskJoypad : Byte := 0x10

/-- Some request named in `mask` is pending (43_peripheral_interrupt_sink.md R197). -/
def State.pending (s : State) (mask : Byte) : Bool := s.ifReg &&& mask != 0x00

/-! ### Row registers (10_state.md R29: a 0 bit is a pressed key) -/

/-- All four keys of a row released. -/
def rowReleased : BitVec 4 := 0xF

/-- `row[r]`. -/
def State.row (s : State) (r : Fin 2) : BitVec 4 := if r = 0 then s.row0 else s.row1

/-- `row & ~(1 << i)` (44_keymatrix.md R207). -/
def clearRowBit (row : BitVec 4) (i : Fin 4) : BitVec 4 := row &&& ~~~(1#4 <<< i.val)

/-- `ROM_OOR` applied to a select of `b` outside `1..n-1` (41_cartridge_bankswitching.md R147, R148). -/
def outOfRangeBank (policy : RomOor) (b : BitVec 7) (n : Nat) (old : BitVec 7) : BitVec 7 :=
  match policy with
  | .reject => old
  | .clamp => if b = 0 then 1 else BitVec.ofNat 7 (n - 1)

end Sys2Proof.Machine
end

