-- ==== Sys2Proof/Machine/Ops.lean ====
section
/-! DEFINITION. The shared operations over the state: responses, the fatal error, cartridge and KeyMatrix accesses, the
interrupt sink, the save store, and the router. -/

namespace Sys2Proof.Machine

/-- The outcome of an operation. -/
abbrev Result := Host.Outcome State Fault Refusal

/-! ### Responses -/

/-- Hand `r` back at the operation's port. -/
def State.reply (r : Response) (s : State) : State := { s with out := ⟨r, none⟩ }

/-- Hand `r` back, and the access `x` to the external port (20_memory.md R62). -/
def State.replyExternal (r : Response) (x : ExtAccess) (s : State) : State := { s with out := ⟨r, some x⟩ }

/-- The operation is done and returns nothing. -/
def finish (s : State) : Result := .next (s.reply .nothing)

/-! ### The one exception -/

/-- `raise Fatal(reason, addr)`: `fault <- (reason, addr)`, no byte is returned, no other state changes
(60_exceptions.md R271). There is no vector, no saved state and no handler (R281). -/
def raiseFatal (reason : FatalReason) (a : Addr) (s : State) : Result :=
  .next { s with fault := some ⟨reason, a⟩, out := ⟨.nothing, none⟩ }

/-- A block whose `fault` is set performs nothing more: "every operation on a faulted state is refused"
(60_exceptions.md R272). There is no return from the fatal error (R282). -/
def whileRunning (s : State) (o : Result) : Result :=
  match s.fault with
  | none => o
  | some record => .refused (.terminated record)

/-! ### Reads -/

/-- What a read comes to; reading changes no state (20_memory.md R65). -/
inductive ReadResult where
  /-- The read returns `b`. -/
  | byte (b : Byte)
  /-- A device outside the block was asked at `a` and answered `b`. -/
  | external (a : Addr) (b : Byte)
  /-- The read raises `Fatal(reason, a)`. -/
  | fatal (reason : FatalReason) (a : Addr)
  /-- The image holds no byte at this offset. -/
  | noImageByte (offset : Nat)
  deriving DecidableEq, Repr

/-- End a read: answer its byte, take its fatal error, or stop. -/
def finishRead (s : State) : ReadResult → Result
  | .byte b => .next (s.reply (.byte b))
  | .external a b => .next (s.replyExternal (.byte b) (.read a))
  | .fatal reason a => raiseFatal reason a s
  | .noImageByte offset => .fault (.imageOffset offset)

/-- `IMAGE[offset]` (10_state.md R37). -/
def readImage (s : State) (offset : Nat) : ReadResult :=
  if offset < s.params.imageSize then .byte (s.params.image.read offset) else .noImageByte offset

/-! ### The NoBanking cartridge -/

/-- 40_cartridge_nobanking.md R121. -/
def nbReadRom (s : State) (a : Addr) : ReadResult := readImage s a.toNat

/-- 40_cartridge_nobanking.md R122. -/
def nbReadFatal (a : Addr) : ReadResult := .fatal .noBankingReadOutOfRange a

/-- 40_cartridge_nobanking.md R123: "always succeeds as a no-op". -/
def nbWrite (_a : Addr) (_v : Byte) (s : State) : State := s

/-! ### The BankSwitching cartridge -/

/-- 41_cartridge_bankswitching.md R141. -/
def bsReadBank0 (s : State) (a : Addr) : ReadResult := readImage s a.toNat

/-- 41_cartridge_bankswitching.md R142. -/
def bsReadWindow (s : State) (a : Addr) : ReadResult := readImage s (windowImageOffset s.romSel a)

/-- RAM is present and enabled. -/
def State.ramOpen (s : State) : Bool := s.params.hasRam && s.ramEn

/-- 41_cartridge_bankswitching.md R143. -/
def bsReadRam (s : State) (a : Addr) : ReadResult :=
  if s.ramOpen then .byte (s.ram.read (ramKey s.ramSel (ramOffset a))) else .byte 0x00

/-- 41_cartridge_bankswitching.md R144. -/
def bsReadOpen (_a : Addr) : ReadResult := .byte 0x00

/-- 41_cartridge_bankswitching.md R145. -/
def bsWriteRamEnable (v : Byte) (s : State) : State :=
  if s.params.hasRam then { s with ramEn := enablesRam v } else s

/-- The bank a ROM select write leaves selected (41_cartridge_bankswitching.md R146). -/
def selectedRomBank (policy : RomOor) (n : Nat) (v : Byte) (old : BitVec 7) : BitVec 7 :=
  let b := romBankField v
  if 1 ≤ b.toNat ∧ b.toNat ≤ n - 1 then b else outOfRangeBank policy b n old

/-- 41_cartridge_bankswitching.md R146. -/
def bsWriteRomSelect (v : Byte) (s : State) : State :=
  { s with romSel := selectedRomBank s.params.romOor s.params.banks v s.romSel }

/-- 41_cartridge_bankswitching.md R149. -/
def bsWriteRamSelect (v : Byte) (s : State) : State := { s with ramSel := ramBankField v }

/-- 41_cartridge_bankswitching.md R152. -/
def bsWriteRam (a : Addr) (v : Byte) (s : State) : State :=
  if s.ramOpen then { s with ram := s.ram.write (ramKey s.ramSel (ramOffset a)) v } else s

/-- 41_cartridge_bankswitching.md R151, R153: "all other ranges: no effect". -/
def bsWriteNone (_a : Addr) (_v : Byte) (s : State) : State := s

/-! ### The cartridge as the router sees it -/

/-- `CartRead(a)` (40_cartridge_nobanking.md R120, 41_cartridge_bankswitching.md R140). -/
def cartRead (s : State) (a : Addr) : ReadResult :=
  match s.params.variant with
  | .noBanking => if a.getLsbD 15 = false then nbReadRom s a else nbReadFatal a
  | .bankSwitching =>
    if a ≤ 0x3FFF#16 then bsReadBank0 s a
    else if a ≤ 0x7FFF#16 then bsReadWindow s a
    else if inRamWindow a then bsReadRam s a
    else bsReadOpen a

/-- `CartWrite(a, v)` (40_cartridge_nobanking.md R120, 41_cartridge_bankswitching.md R140). -/
def cartWrite (a : Addr) (v : Byte) (s : State) : State :=
  match s.params.variant with
  | .noBanking => nbWrite a v s
  | .bankSwitching =>
    if a ≤ 0x1FFF#16 then bsWriteRamEnable v s
    else if a ≤ 0x3FFF#16 then bsWriteRomSelect v s
    else if a ≤ 0x5FFF#16 then bsWriteRamSelect v s
    else if a ≤ 0x7FFF#16 then bsWriteNone a v s
    else if inRamWindow a then bsWriteRam a v s
    else bsWriteNone a v s

/-! ### The interrupt sink -/

/-- `RequestInterrupt(mask)`: `IF <- IF | mask`, one atomic step (43_peripheral_interrupt_sink.md R188). -/
def requestInterrupt (mask : Byte) (s : State) : State := { s with ifReg := s.ifReg ||| mask }

/-- `IF <- IF & ~mask`, the external controller clearing serviced requests (43_peripheral_interrupt_sink.md R190); the
only "return" the block knows (60_exceptions.md R282). -/
def clearInterrupts (mask : Byte) (s : State) : State := { s with ifReg := s.ifReg &&& ~~~mask }

/-- A write of a whole value to `0xFF0F` (46_bus_router.md R253, the reference controller). -/
def writeIf (v : Byte) (s : State) : State := { s with ifReg := v }

/-- A write to `0xFFFF` (46_bus_router.md R254, the reference controller). -/
def writeIe (v : Byte) (s : State) : State := { s with ieReg := v }

/-! ### The KeyMatrix -/

/-- `KmRead(a)`; the device ignores the address (44_keymatrix.md R201, R202). -/
def kmRead (s : State) : Byte :=
  if s.colSel = s.params.selRow1 then s.row1.setWidth 8
  else if s.colSel = s.params.selRow0 then s.row0.setWidth 8
  else 0x00

/-- `KmWrite(a, v)` (44_keymatrix.md R204). -/
def kmWrite (v : Byte) (s : State) : State := { s with colSel := columnField v }

/-- `reset()` of the KeyMatrix (43_peripheral_interrupt_sink.md R192). -/
def keyMatrixReset (s : State) : State := { s with row0 := rowReleased, row1 := rowReleased, colSel := 0x00 }

/-- Clear bit `pos.bit` of `row[pos.row]`. -/
def clearKeyBit (pos : KeyPos) (s : State) : State :=
  if pos.row = 0 then { s with row0 := clearRowBit s.row0 pos.bit } else { s with row1 := clearRowBit s.row1 pos.bit }

/-- A recognized key event: the joypad request and the key's bit, in one step (44_keymatrix.md R207). -/
def pressKey (k : Key) (s : State) : State := clearKeyBit (s.params.keymap.pos k) (requestInterrupt maskJoypad s)

/-! ### The save store -/

/-- `SaveRam` (42_persistence.md R172, R173; 40_cartridge_nobanking.md R126). -/
def saveRam (s : State) : State :=
  match s.params.variant with
  | .noBanking => s.reply .ok
  | .bankSwitching =>
    if !(s.params.hasRam && s.params.hasBattery) then s.reply .ok
    else if s.draws.saveFails then s.reply (.error .persistenceError)
    else State.reply .ok { s with store := some s.ram }

/-- `LoadRam` (42_persistence.md R174, R175; 40_cartridge_nobanking.md R126). -/
def loadRam (s : State) : State :=
  match s.params.variant with
  | .noBanking => s.reply .ok
  | .bankSwitching =>
    if !(s.params.hasRam && s.params.hasBattery) then s.reply .ok
    else match s.store with
      | none => s.reply (.error .persistenceError)
      | some record =>
        if s.draws.loadFails then s.reply (.error .persistenceError)
        else State.reply .ok { s with ram := record }

/-! ### The router -/

/-- A read of an address no device of the block claims (46_bus_router.md R244). -/
def unclaimedRead (s : State) (a : Addr) : ReadResult :=
  if a ∈ s.params.extMap then .external a s.draws.extRead else .byte 0x00

/-- A write to an address no device of the block claims (46_bus_router.md R251). -/
def unclaimedWrite (a : Addr) (v : Byte) (s : State) : State :=
  if a ∈ s.params.extMap then s.replyExternal .nothing (.write a v) else s.reply .nothing

/-- `BusRead(a)` (46_bus_router.md R241). -/
def busRead (s : State) (a : Addr) : ReadResult :=
  if a = s.params.keymatrixAddr then .byte (kmRead s)
  else if a = 0xFF0F then .byte s.ifReg
  else if a = 0xFFFF then .byte s.ieReg
  else if routedToCart a then cartRead s a
  else unclaimedRead s a

/-- `BusWrite(a, v)` (46_bus_router.md R248), with its response. -/
def busWrite (a : Addr) (v : Byte) (s : State) : State :=
  if a = s.params.keymatrixAddr then (kmWrite v s).reply .nothing
  else if a = 0xFF0F then (writeIf v s).reply .nothing
  else if a = 0xFFFF then (writeIe v s).reply .nothing
  else if routedToCart a then (cartWrite a v s).reply .nothing
  else unclaimedWrite a v s

end Sys2Proof.Machine
end

