-- ==== Sys2Proof/Machine/BankSwitching.lean ====
section
/-! DEFINITION. The meanings of `CARTRD` and `CARTWR` on the BankSwitching cartridge (41_cartridge_bankswitching.md). -/

namespace Sys2Proof.Machine

/-- `CARTRD.BS.BANK0` (R141). -/
def execCartrdBsBank0 (a : Addr) (s : State) : Result := whileRunning s (finishRead s (bsReadBank0 s a))

/-- `CARTRD.BS.WINDOW` (R142). -/
def execCartrdBsWindow (a : Addr) (s : State) : Result := whileRunning s (finishRead s (bsReadWindow s a))

/-- `CARTRD.BS.RAM` (R143). -/
def execCartrdBsRam (a : Addr) (s : State) : Result := whileRunning s (finishRead s (bsReadRam s a))

/-- `CARTRD.BS.OPEN.LO` (R144), `0x8000` to `0x9FFF`. -/
def execCartrdBsOpenLo (a : Addr) (s : State) : Result := whileRunning s (finishRead s (bsReadOpen a))

/-- `CARTRD.BS.OPEN.HI` (R144), `0xC000` to `0xFFFF`. -/
def execCartrdBsOpenHi (a : Addr) (s : State) : Result := whileRunning s (finishRead s (bsReadOpen a))

/-- `CARTWR.BS.RAMEN` (R145). -/
def execCartwrBsRamen (_a : Addr) (v : Byte) (s : State) : Result := whileRunning s (finish (bsWriteRamEnable v s))

/-- `CARTWR.BS.ROMSEL` (R146, R147, R148). -/
def execCartwrBsRomsel (_a : Addr) (v : Byte) (s : State) : Result := whileRunning s (finish (bsWriteRomSelect v s))

/-- `CARTWR.BS.RAMSEL` (R149). -/
def execCartwrBsRamsel (_a : Addr) (v : Byte) (s : State) : Result := whileRunning s (finish (bsWriteRamSelect v s))

/-- `CARTWR.BS.NONE6` (R151). -/
def execCartwrBsNone6 (a : Addr) (v : Byte) (s : State) : Result := whileRunning s (finish (bsWriteNone a v s))

/-- `CARTWR.BS.NONE.LO` (R153), `0x8000` to `0x9FFF`. -/
def execCartwrBsNoneLo (a : Addr) (v : Byte) (s : State) : Result := whileRunning s (finish (bsWriteNone a v s))

/-- `CARTWR.BS.RAM` (R152). -/
def execCartwrBsRam (a : Addr) (v : Byte) (s : State) : Result := whileRunning s (finish (bsWriteRam a v s))

/-- `CARTWR.BS.NONE.HI` (R153), `0xC000` to `0xFFFF`. -/
def execCartwrBsNoneHi (a : Addr) (v : Byte) (s : State) : Result := whileRunning s (finish (bsWriteNone a v s))

end Sys2Proof.Machine
end

