-- ==== Sys2Proof/Machine/Boundary.lean ====
section
/-! DEFINITION. The meaning of `INVALID`: the verdict at the boundary (30_encoding.md R108). -/

namespace Sys2Proof.Machine

/-- `INVALID` (R108): the word is turned away with the verdict `invalid`, no state changes, it is no fault and the block goes on (log 8). -/
def execInvalid (_kindBit : BitVec 1) (s : State) : Result := whileRunning s (.next (s.reply .invalid))

end Sys2Proof.Machine
end

