-- ==== Sys2Proof/Machine/Bus.lean ====
section
/-! DEFINITION. The meanings of `BUSRD` and `BUSWR`, one for each row of the router (46_bus_router.md). -/

namespace Sys2Proof.Machine

/-- `BUSRD.KM` (R245): `KmRead(addr)`. -/
def execBusrdKm (s : State) : Result := whileRunning s (finishRead s (.byte (kmRead s)))

/-- `BUSRD.IF` (R246): `result <- IF`, under the reference controller (log 9). -/
def execBusrdIf (s : State) : Result := whileRunning s (finishRead s (.byte s.ifReg))

/-- `BUSRD.IE` (R247): `result <- IE`, under the reference controller (log 9). -/
def execBusrdIe (s : State) : Result := whileRunning s (finishRead s (.byte s.ieReg))

/-- `BUSRD.CART.ROM` (R242): `CartRead(addr)`. -/
def execBusrdCartRom (a : Addr) (s : State) : Result := whileRunning s (finishRead s (cartRead s a))

/-- `BUSRD.CART.RAM` (R242, R243): `CartRead(addr)`, fatal on the NoBanking variant. -/
def execBusrdCartRam (a : Addr) (s : State) : Result := whileRunning s (finishRead s (cartRead s a))

/-- `BUSRD.UNCLAIMED.LO` (R244), `0x8000` to `0x9FFF`. -/
def execBusrdUnclaimedLo (a : Addr) (s : State) : Result := whileRunning s (finishRead s (unclaimedRead s a))

/-- `BUSRD.UNCLAIMED.HI` (R244), `0xC000` to `0xFFFF`. -/
def execBusrdUnclaimedHi (a : Addr) (s : State) : Result := whileRunning s (finishRead s (unclaimedRead s a))

/-- `BUSWR.KM` (R252): `KmWrite(addr, data)`. -/
def execBuswrKm (v : Byte) (s : State) : Result := whileRunning s (finish (kmWrite v s))

/-- `BUSWR.IF` (R253): `IF <- data`, under the reference controller (log 9). -/
def execBuswrIf (v : Byte) (s : State) : Result := whileRunning s (finish (writeIf v s))

/-- `BUSWR.IE` (R254): `IE <- data`, under the reference controller (log 9). -/
def execBuswrIe (v : Byte) (s : State) : Result := whileRunning s (finish (writeIe v s))

/-- `BUSWR.CART.ROM` (R249): `CartWrite(addr, data)`. -/
def execBuswrCartRom (a : Addr) (v : Byte) (s : State) : Result := whileRunning s (finish (cartWrite a v s))

/-- `BUSWR.CART.RAM` (R249): `CartWrite(addr, data)`. -/
def execBuswrCartRam (a : Addr) (v : Byte) (s : State) : Result := whileRunning s (finish (cartWrite a v s))

/-- `BUSWR.UNCLAIMED.LO` (R251), `0x8000` to `0x9FFF`. -/
def execBuswrUnclaimedLo (a : Addr) (v : Byte) (s : State) : Result := whileRunning s (.next (unclaimedWrite a v s))

/-- `BUSWR.UNCLAIMED.HI` (R251), `0xC000` to `0xFFFF`. -/
def execBuswrUnclaimedHi (a : Addr) (v : Byte) (s : State) : Result := whileRunning s (.next (unclaimedWrite a v s))

end Sys2Proof.Machine
end

