-- ==== Sys2Proof/Machine/Interrupt.lean ====
section
/-! DEFINITION. The meanings of `RESET`, `IRQREQ`, `IFCLR` and `IFRD` (43_peripheral_interrupt_sink.md). -/

namespace Sys2Proof.Machine

/-- `RESET` (R192): `reset()` of every Peripheral, that is of the KeyMatrix; the cartridge and `IF` keep their state (R193, R194). -/
def execReset (s : State) : Result := whileRunning s (finish (keyMatrixReset s))

/-- `IRQREQ` (R188). -/
def execIrqreq (mask : Byte) (s : State) : Result := whileRunning s (finish (requestInterrupt mask s))

/-- `IFCLR` (R190). -/
def execIfclr (mask : Byte) (s : State) : Result := whileRunning s (finish (clearInterrupts mask s))

/-- `IFRD` (R189): reading does not clear. -/
def execIfrd (s : State) : Result := whileRunning s (finishRead s (.byte s.ifReg))

end Sys2Proof.Machine
end

