-- ==== Sys2Proof/Machine/KeyMatrix.lean ====
section
/-! DEFINITION. The meanings of `KEY`, `KMRD` and `KMWR` (44_keymatrix.md). -/

namespace Sys2Proof.Machine

/-- `KEY.up` (R208, R207). -/
def execKeyUp (s : State) : Result := whileRunning s (finish (pressKey .up s))

/-- `KEY.down` (R209, R207). -/
def execKeyDown (s : State) : Result := whileRunning s (finish (pressKey .down s))

/-- `KEY.left` (R210, R207). -/
def execKeyLeft (s : State) : Result := whileRunning s (finish (pressKey .left s))

/-- `KEY.right` (R211, R207). -/
def execKeyRight (s : State) : Result := whileRunning s (finish (pressKey .right s))

/-- `KEY.a` (R212, R207). -/
def execKeyA (s : State) : Result := whileRunning s (finish (pressKey .a s))

/-- `KEY.b` (R213, R207). -/
def execKeyB (s : State) : Result := whileRunning s (finish (pressKey .b s))

/-- `KEY.start` (R214, R207). -/
def execKeyStart (s : State) : Result := whileRunning s (finish (pressKey .start s))

/-- `KEY.select` (R215, R207). -/
def execKeySelect (s : State) : Result := whileRunning s (finish (pressKey .select s))

/-- `KEY.unrecognized` (R216): the joypad request and no row change; the code does not matter. -/
def execKeyUnrecognized (_code : BitVec 4) (s : State) : Result := whileRunning s (finish (requestInterrupt maskJoypad s))

/-- `KMRD` (R202); the device ignores the address (R201). -/
def execKmrd (_a : Addr) (s : State) : Result := whileRunning s (finishRead s (.byte (kmRead s)))

/-- `KMWR` (R204); the device ignores the address (R201). -/
def execKmwr (_a : Addr) (v : Byte) (s : State) : Result := whileRunning s (finish (kmWrite v s))

end Sys2Proof.Machine
end

