-- ==== Sys2Proof/Machine/NoBanking.lean ====
section
/-! DEFINITION. The meanings of `CARTRD` and `CARTWR` on the NoBanking cartridge (40_cartridge_nobanking.md). -/

namespace Sys2Proof.Machine

/-- `CARTRD.NB.ROM` (R121). -/
def execCartrdNbRom (a : Addr) (s : State) : Result := whileRunning s (finishRead s (nbReadRom s a))

/-- `CARTRD.NB.FATAL` (R122): takes the fatal error. -/
def execCartrdNbFatal (a : Addr) (s : State) : Result := whileRunning s (finishRead s (nbReadFatal a))

/-- `CARTWR.NB` (R123). -/
def execCartwrNb (a : Addr) (v : Byte) (s : State) : Result := whileRunning s (finish (nbWrite a v s))

end Sys2Proof.Machine
end

