-- ==== Sys2Proof/Machine/Persistence.lean ====
section
/-! DEFINITION. The meanings of `SAVE` and `LOAD` (42_persistence.md). -/

namespace Sys2Proof.Machine

/-- `SAVE` (R172, R173, R126). -/
def execSave (s : State) : Result := whileRunning s (.next (saveRam s))

/-- `LOAD` (R174, R175, R126). -/
def execLoad (s : State) : Result := whileRunning s (.next (loadRam s))

end Sys2Proof.Machine
end

