-- ==== Sys2Proof/Machine/Tick.lean ====
section
/-! DEFINITION. The meaning of `TICK` (45_dispatcher_tick.md). -/

namespace Sys2Proof.Machine

/-- `TICK` (R231): the KeyMatrix's `reset()`, whole, by the spec's decision D24 (log 9). -/
def execTick (s : State) : Result := whileRunning s (finish (keyMatrixReset s))

end Sys2Proof.Machine
end

