-- ==== Sys2Proof/Machine/Dispatch.lean ====
section
/-! DEFINITION. One arm for each operation: a direct call of its meaning. -/

namespace Sys2Proof.Machine

/-- The effect of an operation on a state. -/
def exec (i : Instr) (s : State) : Host.Outcome State Fault Refusal :=
  match i with
  | .busrdKm => Sys2Proof.Machine.execBusrdKm s
  | .busrdIf => Sys2Proof.Machine.execBusrdIf s
  | .busrdIe => Sys2Proof.Machine.execBusrdIe s
  | .busrdCartRom a => Sys2Proof.Machine.execBusrdCartRom a s
  | .busrdCartRam a => Sys2Proof.Machine.execBusrdCartRam a s
  | .busrdUnclaimedLo a => Sys2Proof.Machine.execBusrdUnclaimedLo a s
  | .busrdUnclaimedHi a => Sys2Proof.Machine.execBusrdUnclaimedHi a s
  | .buswrKm v => Sys2Proof.Machine.execBuswrKm v s
  | .buswrIf v => Sys2Proof.Machine.execBuswrIf v s
  | .buswrIe v => Sys2Proof.Machine.execBuswrIe v s
  | .buswrCartRom a v => Sys2Proof.Machine.execBuswrCartRom a v s
  | .buswrCartRam a v => Sys2Proof.Machine.execBuswrCartRam a v s
  | .buswrUnclaimedLo a v => Sys2Proof.Machine.execBuswrUnclaimedLo a v s
  | .buswrUnclaimedHi a v => Sys2Proof.Machine.execBuswrUnclaimedHi a v s
  | .keyUp => Sys2Proof.Machine.execKeyUp s
  | .keyDown => Sys2Proof.Machine.execKeyDown s
  | .keyLeft => Sys2Proof.Machine.execKeyLeft s
  | .keyRight => Sys2Proof.Machine.execKeyRight s
  | .keyA => Sys2Proof.Machine.execKeyA s
  | .keyB => Sys2Proof.Machine.execKeyB s
  | .keyStart => Sys2Proof.Machine.execKeyStart s
  | .keySelect => Sys2Proof.Machine.execKeySelect s
  | .keyUnrecognized c => Sys2Proof.Machine.execKeyUnrecognized c s
  | .tick => Sys2Proof.Machine.execTick s
  | .reset => Sys2Proof.Machine.execReset s
  | .save => Sys2Proof.Machine.execSave s
  | .load => Sys2Proof.Machine.execLoad s
  | .irqreq m => Sys2Proof.Machine.execIrqreq m s
  | .ifclr m => Sys2Proof.Machine.execIfclr m s
  | .ifrd => Sys2Proof.Machine.execIfrd s
  | .cartrdNbRom a => Sys2Proof.Machine.execCartrdNbRom a s
  | .cartrdNbFatal a => Sys2Proof.Machine.execCartrdNbFatal a s
  | .cartrdBsBank0 a => Sys2Proof.Machine.execCartrdBsBank0 a s
  | .cartrdBsWindow a => Sys2Proof.Machine.execCartrdBsWindow a s
  | .cartrdBsRam a => Sys2Proof.Machine.execCartrdBsRam a s
  | .cartrdBsOpenLo a => Sys2Proof.Machine.execCartrdBsOpenLo a s
  | .cartrdBsOpenHi a => Sys2Proof.Machine.execCartrdBsOpenHi a s
  | .cartwrNb a v => Sys2Proof.Machine.execCartwrNb a v s
  | .cartwrBsRamen a v => Sys2Proof.Machine.execCartwrBsRamen a v s
  | .cartwrBsRomsel a v => Sys2Proof.Machine.execCartwrBsRomsel a v s
  | .cartwrBsRamsel a v => Sys2Proof.Machine.execCartwrBsRamsel a v s
  | .cartwrBsNone6 a v => Sys2Proof.Machine.execCartwrBsNone6 a v s
  | .cartwrBsNoneLo a v => Sys2Proof.Machine.execCartwrBsNoneLo a v s
  | .cartwrBsRam a v => Sys2Proof.Machine.execCartwrBsRam a v s
  | .cartwrBsNoneHi a v => Sys2Proof.Machine.execCartwrBsNoneHi a v s
  | .kmrd a => Sys2Proof.Machine.execKmrd a s
  | .kmwr a v => Sys2Proof.Machine.execKmwr a v s
  | .invalid k => Sys2Proof.Machine.execInvalid k s

end Sys2Proof.Machine
end

