-- ==== Sys2Proof/Machine/Step.lean ====
section
/-! DEFINITION. One step of the block: the next word that has arrived is decoded and performed as one atomic step
(20_memory.md R67, R70). -/

namespace Sys2Proof.Machine

/-- Take the first word of `inbox` to be performed: its draws become the draws of this operation. -/
def State.accept (r : Request) (rest : List Request) (s : State) : State := { s with inbox := rest, draws := r.draws }

/-- A terminal block performs nothing (60_exceptions.md R272). With no word waiting nothing happens: the block itself
originates nothing (20_memory.md R69). Otherwise the oldest word is decoded and performed. -/
def step (s : State) : Host.Outcome State Fault Refusal :=
  whileRunning s <|
    match s.inbox with
    | [] => .next s
    | r :: rest => exec (decode s.params r.word) (s.accept r rest)

/-- `s` with the word `w` arriving so that the very next step performs it, with the draws that stand in `s`. A word is
28 bits, so `w` is taken below bit 28 (log 10). -/
def State.withFetchWord (s : State) (_nbits w : Nat) : State :=
  { s with inbox := ⟨BitVec.ofNat 28 w, s.draws⟩ :: s.inbox }

end Sys2Proof.Machine
end

