-- ==== Sys2Proof/Machine/Ports.lean ====
section
/-! DEFINITION. Through which port an operation enters and which agent issues it (30_encoding.md R90, 20_memory.md R69). -/

namespace Sys2Proof.Machine

/-- The ports of 30_encoding.md R90. -/
inductive Port where
  | bus | key | tick | reset | persist | sink | intctl | cart | km
  deriving DecidableEq, Repr

/-- The agents of 20_memory.md R69. -/
inductive Agent where
  | busMaster | keySource | tickTimer | interruptController | otherDevice | host
  deriving DecidableEq, Repr

/-- The port an operation enters through; a word that is no operation enters through none. -/
def portOf : Instr → Option Port
  | .busrdKm | .busrdIf | .busrdIe | .busrdCartRom _ | .busrdCartRam _ | .busrdUnclaimedLo _ | .busrdUnclaimedHi _
  | .buswrKm _ | .buswrIf _ | .buswrIe _ | .buswrCartRom _ _ | .buswrCartRam _ _ | .buswrUnclaimedLo _ _
  | .buswrUnclaimedHi _ _ => some .bus
  | .keyUp | .keyDown | .keyLeft | .keyRight | .keyA | .keyB | .keyStart | .keySelect | .keyUnrecognized _ => some .key
  | .tick => some .tick
  | .reset => some .reset
  | .save | .load => some .persist
  | .irqreq _ => some .sink
  | .ifclr _ | .ifrd => some .intctl
  | .cartrdNbRom _ | .cartrdNbFatal _ | .cartrdBsBank0 _ | .cartrdBsWindow _ | .cartrdBsRam _ | .cartrdBsOpenLo _
  | .cartrdBsOpenHi _ | .cartwrNb _ _ | .cartwrBsRamen _ _ | .cartwrBsRomsel _ _ | .cartwrBsRamsel _ _
  | .cartwrBsNone6 _ _ | .cartwrBsNoneLo _ _ | .cartwrBsRam _ _ | .cartwrBsNoneHi _ _ => some .cart
  | .kmrd _ | .kmwr _ _ => some .km
  | .invalid _ => none

/-- The agent that drives a port. -/
def agentOf : Port → Agent
  | .bus => .busMaster
  | .key => .keySource
  | .tick => .tickTimer
  | .reset | .persist | .cart | .km => .host
  | .sink => .otherDevice
  | .intctl => .interruptController

end Sys2Proof.Machine
end

