-- ==== Sys2Proof/Machine/Construct.lean ====
section
/-! DEFINITION. Construction of the block from a raw image and declared sizes, with its refusals
(41_cartridge_bankswitching.md R154, 40_cartridge_nobanking.md R124, 30_encoding.md R97), and the power cycle
(42_persistence.md R177). -/

namespace Sys2Proof.Machine

/-! ### Admitted parameters -/

/-- `a` lies in a range the router sends to the cartridge (30_encoding.md R97). -/
def inCartridgeRange (a : Addr) : Bool := a &&& 0x8000 == 0x0000 || a &&& 0xE000 == 0xA000

/-- `KEYMATRIX_ADDR` is neither interrupt register's address nor in a cartridge range (30_encoding.md R97). -/
def keymatrixAddrOk (a : Addr) : Bool := a != 0xFF0F && a != 0xFFFF && !inCartridgeRange a

/-- The two select codes are distinct values of `col_sel` (44_keymatrix.md R203). -/
def selectCodesOk (c0 c1 : Byte) : Bool := c0 &&& 0xCF == 0x00 && c1 &&& 0xCF == 0x00 && c0 != c1

/-- The eight keys. -/
def allKeys : List Key := [.up, .down, .left, .right, .a, .b, .start, .select]

/-- `KEYMAP` is injective (00_scope.md R8). -/
def keymapOk (m : KeyMap) : Bool := allKeys.all fun k => allKeys.all fun k' => k == k' || m.pos k != m.pos k'

/-- A canonical memory of `size` bytes. -/
def Memory.sized (m : Memory) (size : Nat) : Bool := m.wf && m.within size

/-- What the variant asks of the cartridge parameters: NoBanking has no RAM and no battery (40_cartridge_nobanking.md
R124), BankSwitching has a switchable bank (41_cartridge_bankswitching.md R154). -/
def cartridgeOk (p : Params) : Bool :=
  match p.variant with
  | .noBanking => !p.hasRam && !p.hasBattery
  | .bankSwitching => 2 ≤ p.banks

/-- The parameters are ones a construction admits (00_scope.md R8). -/
def validParams (p : Params) : Bool :=
  keymatrixAddrOk p.keymatrixAddr && selectCodesOk p.selRow0 p.selRow1 && keymapOk p.keymap
    && Memory.sized p.image p.imageSize && Memory.sized p.ramInit Config.ramSize && cartridgeOk p

/-! ### Construction -/

/-- What a construction is given: "a raw image plus declared total ROM size and total RAM size ... and a
battery-presence flag" (41_cartridge_bankswitching.md R154), and the parameters of 00_scope.md R8. On NoBanking only the
image matters of the cartridge's own. -/
structure BuildArgs where
  variant : CartVariant
  rawImage : Memory
  rawLength : Nat
  romSize : Nat
  ramSize : Nat
  battery : Bool
  romOor : RomOor
  ramInit : Memory
  keymatrixAddr : Addr
  selRow0 : Byte
  selRow1 : Byte
  keymap : KeyMap
  ifReset : Byte
  extMap : List Addr
  deriving DecidableEq, Repr

/-- Why a construction is refused. -/
inductive BuildRefusal where
  /-- The raw image or `RAM_INIT` is no canonical list of its size (the model's own form, log 11). -/
  | notCanonical
  /-- The declared ROM size is no multiple of `0x4000` (R154). -/
  | romSizeNotBanks
  /-- The declared RAM size is no multiple of `0x2000` (R154). -/
  | ramSizeNotBanks
  /-- `N < 2` (R154). -/
  | noSwitchableBank
  /-- The image is shorter than the cartridge needs (R154, R124). -/
  | imageTooShort
  /-- `KEYMATRIX_ADDR` is not admitted (30_encoding.md R97). -/
  | keymatrixAddress
  /-- `SEL_ROW0`, `SEL_ROW1` are not two distinct codes (44_keymatrix.md R203). -/
  | selectCodes
  /-- `KEYMAP` is not injective (00_scope.md R8). -/
  | keymapNotInjective
  deriving DecidableEq, Repr

/-- `N`, the declared total ROM size in banks (41_cartridge_bankswitching.md R154). -/
def BuildArgs.banks (b : BuildArgs) : Nat := b.romSize / Config.romBankSize

/-- The image bytes the cartridge needs. -/
def BuildArgs.neededLength (b : BuildArgs) : Nat :=
  match b.variant with
  | .noBanking => Config.noBankingSize
  | .bankSwitching => b.banks * Config.romBankSize

/-- The checks of a construction, each with its refusal; the first that fails is the one reported (log 15). -/
def BuildArgs.checks (b : BuildArgs) : List (Bool × BuildRefusal) := [
  (b.rawImage.sized b.rawLength && b.ramInit.sized Config.ramSize, .notCanonical),
  (b.variant == .noBanking || b.romSize % Config.romBankSize == 0, .romSizeNotBanks),
  (b.variant == .noBanking || b.ramSize % Config.ramBankSize == 0, .ramSizeNotBanks),
  (b.variant == .noBanking || decide (2 ≤ b.banks), .noSwitchableBank),
  (decide (b.neededLength ≤ b.rawLength), .imageTooShort),
  (keymatrixAddrOk b.keymatrixAddr, .keymatrixAddress),
  (selectCodesOk b.selRow0 b.selRow1, .selectCodes),
  (keymapOk b.keymap, .keymapNotInjective)]

/-- The parameters a construction fixes: a larger image is truncated (40_cartridge_nobanking.md R124), `HAS_RAM` is
"declared total RAM size > 0" (41_cartridge_bankswitching.md R154). -/
def BuildArgs.params (b : BuildArgs) : Params where
  variant := b.variant
  image := b.rawImage.truncate b.neededLength
  banks := b.banks
  hasRam := b.variant == .bankSwitching && decide (0 < b.ramSize)
  hasBattery := b.variant == .bankSwitching && b.battery
  romOor := b.romOor
  ramInit := b.ramInit
  keymatrixAddr := b.keymatrixAddr
  selRow0 := b.selRow0
  selRow1 := b.selRow1
  keymap := b.keymap
  ifReset := b.ifReset
  extMap := b.extMap

/-- Construction: the parameters, or the reason it is refused. -/
def construct (b : BuildArgs) : Except BuildRefusal Params :=
  match b.checks.find? fun c => !c.1 with
  | some c => .error c.2
  | none => .ok b.params

/-! ### Power cycle -/

/-- Destroyed and constructed anew with the same parameters: "`store` is the only element that survives"
(42_persistence.md R177). `IE` is unspecified, so it is an argument. -/
def powerCycle (ie : Byte) (s : State) : State := State.powerOn s.params s.store ie

end Sys2Proof.Machine
end

