-- ==== Sys2Proof/Machine/Run.lean ====
section
/-! DEFINITION. A sequence of operations in the total order (20_memory.md R70), each one step. -/

namespace Sys2Proof.Machine

/-- Perform the words of `rs` one after another, each as the only word waiting, stopping at the first fault or refusal. -/
def perform : List Request → State → Result
  | [], s => .next s
  | r :: rs, s =>
    match step { s with inbox := [r] } with
    | .next t => perform rs t
    | .fault f => .fault f
    | .refused f => .refused f

end Sys2Proof.Machine
end

