-- ==== Sys2Proof/Safety.lean ====
section
/-! DEFINITION. What counts as a sound state and a sound history: the invariants of 10_state.md R23, the class of silent
no-ops (60_exceptions.md R273), and the presses a row register must explain (45_dispatcher_tick.md R233). -/

namespace Sys2Proof.Machine

/-- The invariants the state always satisfies (10_state.md R23), with the form of the model's own memories. R23 (b) and
(f) hold by the types of `ramSel`, `row0` and `row1`. -/
structure State.Inv (s : State) : Prop where
  /-- The construction admitted the parameters. -/
  valid : validParams s.params = true
  /-- R23 (a): `1 <= rom_sel <= N-1` on the BankSwitching variant. -/
  romSelLow : s.params.variant = .bankSwitching → 1 ≤ s.romSel.toNat
  romSelHigh : s.params.variant = .bankSwitching → s.romSel.toNat ≤ s.params.banks - 1
  /-- R23 (d): `ram_en = 1` only if `HAS_RAM`. -/
  ramEnNeedsRam : s.ramEn = true → s.params.hasRam = true
  /-- R23 (e): `col_sel & 0xCF = 0`. -/
  colSelBits : s.colSel &&& 0xCF = 0x00
  /-- Four banks of `0x2000` bytes, canonical. -/
  ramSized : s.ram.sized Config.ramSize = true
  /-- R23 (c): RAM banks exist only if `HAS_RAM`. -/
  ramNeedsRam : s.params.hasRam = false → s.ram = []
  /-- A save record is four banks of `0x2000` bytes (42_persistence.md R171). -/
  storeSized : ∀ m, s.store = some m → m.sized Config.ramSize = true

/-- The operations of 60_exceptions.md R273's "complete list" of SilentNoOp, at the state they are performed in: at the
cartridge port, through the router to the cartridge (46_bus_router.md R242, R249), and at unclaimed addresses. -/
def silentNoOp (s : State) : Instr → Bool
  | .cartwrNb _ _ | .cartwrBsNone6 _ _ | .cartwrBsNoneLo _ _ | .cartwrBsNoneHi _ _ => true
  | .cartrdBsOpenLo _ | .cartrdBsOpenHi _ => true
  | .cartwrBsRamen _ _ => !s.params.hasRam
  | .cartwrBsRam _ _ | .cartrdBsRam _ => !(s.params.hasRam && s.ramEn)
  | .buswrCartRom a _ => s.params.variant == .noBanking || a &&& 0xE000 == 0x6000
      || (a &&& 0xE000 == 0x0000 && !s.params.hasRam)
  | .buswrCartRam a _ => s.params.variant == .noBanking || (a &&& 0xE000 == 0xA000 && !(s.params.hasRam && s.ramEn))
  | .busrdCartRam a => s.params.variant == .bankSwitching && a &&& 0xE000 == 0xA000 && !(s.params.hasRam && s.ramEn)
  | .busrdUnclaimedLo a | .busrdUnclaimedHi a | .buswrUnclaimedLo a _ | .buswrUnclaimedHi a _ => a ∉ s.params.extMap
  | _ => false

/-- The operation returns a byte, if it is one of the silent class. -/
def silentRead : Instr → Bool
  | .cartrdBsOpenLo _ | .cartrdBsOpenHi _ | .cartrdBsRam _ | .busrdCartRam _ => true
  | .busrdUnclaimedLo _ | .busrdUnclaimedHi _ => true
  | _ => false

/-- `TICK` or `RESET`: what releases all keys (44_keymatrix.md R206). -/
def releasesKeys : Instr → Bool
  | .tick | .reset => true
  | _ => false

/-- A press of `k` stands in the history after the latest release of all keys (45_dispatcher_tick.md R233). -/
def pressedSinceRelease (history : List Instr) (k : Key) : Prop :=
  ∃ before press after, history = before ++ press :: after ∧ press.pressedKey = some k ∧
    ∀ i ∈ after, releasesKeys i = false

end Sys2Proof.Machine
end

