-- ==== Sys2Proof/Certificates/Slice0/Obligations.lean ====
section
/-! DEFINITION. The statements for the provers. Each says what the spec says an operation or the block does; one whose
docstring names a decision `D<n>` or a log entry rests, for that clause, on a choice of the spec's or of the model's. -/

open Sys2Proof Sys2Proof.Machine

/-! ### Encoding -/

/-- Encoding a well-formed operation and decoding the word gives the operation back, for every admitted parameter set. -/
def Obligations.DecodeOfEncodeIsIdentity : Prop :=
  ∀ (p : Params) (i : Instr), validParams p = true → i.wellFormed p = true → decode p (encode p i) = i

/-- Decoding any word and encoding the result gives the word with the bits its kind does not take set to zero. -/
def Obligations.EncodeOfDecodeKeepsTakenBits : Prop :=
  ∀ (p : Params) (w : TWord), encode p (decode p w) = w &&& takenBits (kindOf w)

/-- Whatever the word, the operation it decodes to lies in its row's range and exists for the variant. -/
def Obligations.DecodedOperationIsWellFormed : Prop :=
  ∀ (p : Params) (w : TWord), (decode p w).wellFormed p = true

/-- With variant and priority applied, every 28-bit word selects exactly one row of the opcode table, and it is the row
of the operation the word decodes to (R102, decision D3). -/
def Obligations.EveryWordSelectsItsOneRow : Prop :=
  ∀ (p : Params) (w : TWord), validParams p = true →
    (selectedRows p w).map OpcodeRow.index = [(decode p w).rowIndex]

/-- Words written out in the spec, one of each family, decode to the operations the spec names for them (default
parameters, and the same with a NoBanking cartridge). -/
def Obligations.WordsOfTheSpecDecode : Prop :=
  decode Config.defaultParams 0x0FF0000 = .busrdKm ∧
  decode Config.defaultParams 0x0400000 = .busrdCartRom 0x4000 ∧
  decode Config.defaultParams 0x1A0005A = .buswrCartRam 0xA000 0x5A ∧
  decode Config.defaultParams 0x1FFFF10 = .buswrIe 0x10 ∧
  decode Config.defaultParams 0x2FFFF03 = .keyRight ∧
  decode Config.defaultParams 0x200001F = .keyUnrecognized 0xF ∧
  decode Config.defaultParams 0x3ABCDEF = .tick ∧
  decode Config.defaultParams 0x70000E8 = .irqreq 0xE8 ∧
  decode Config.defaultParams 0xA412300 = .cartrdBsWindow 0x4123 ∧
  decode Config.defaultParams 0xB200085 = .cartwrBsRomsel 0x2000 0x85 ∧
  decode Config.defaultParams 0xD1234EF = .kmwr 0x1234 0xEF ∧
  decode Config.defaultParams 0xF123456 = .invalid 1 ∧
  decode { Config.defaultParams with variant := .noBanking } 0xA800000 = .cartrdNbFatal 0x8000 ∧
  decode { Config.defaultParams with variant := .noBanking } 0xB0134FF = .cartwrNb 0x0134 0xFF

/-- A word decodes to `INVALID` exactly when its kind is `0xE` or `0xF` (R108, decision D3). -/
def Obligations.InvalidIsKindEOrF : Prop :=
  ∀ (p : Params) (w : TWord), (∃ k, decode p w = .invalid k) ↔ kindOf w = 0xE ∨ kindOf w = 0xF

/-! ### The step -/

/-- A step performs the oldest word that has arrived: it is `exec` of the operation the word decodes to, at the state
with the word taken out of `inbox` and its draws in place; `withFetchWord` puts a word there (log 1, log 5). -/
def Obligations.StepPerformsTheOldestWord : Prop :=
  (∀ (s : State) (r : Request) (rest : List Request) (i : Instr), s.fault = none → s.inbox = r :: rest →
    decode s.params r.word = i → step s = exec i { s with inbox := rest, draws := r.draws }) ∧
  (∀ (s : State) (n w : Nat) (i : Instr), s.fault = none → decodeNat s.params w = .ok i →
    step (s.withFetchWord n w) = exec i s)

/-- With no word waiting a running block's step changes nothing: the block itself originates nothing (log 1). -/
def Obligations.BlockOriginatesNothing : Prop :=
  ∀ s : State, s.fault = none → s.inbox = [] → step s = .next s

/-- Once `fault` is set every operation and every step is refused (R272, decision D18; the refusal of a step with no word
waiting is the model's, log 7). -/
def Obligations.TerminalBlockRefusesEverything : Prop :=
  ∀ (i : Instr) (s : State) (f : FatalRecord), s.fault = some f →
    exec i s = .refused (.terminated f) ∧ step s = .refused (.terminated f)

/-! ### The NoBanking cartridge -/

/-- R121: a NoBanking read of `0x0000..0x7FFF` returns the image byte at the bus address and changes nothing else. -/
def Obligations.NoBankingReadsTheImage : Prop :=
  ∀ (s : State) (a : Addr), s.fault = none → s.params.variant = .noBanking → a &&& 0x8000 = 0x0000 →
    exec (.cartrdNbRom a) s = .next { s with out := ⟨.byte (s.params.image.read a.toNat), none⟩ }

/-- R122: a NoBanking read of `0x8000..0xFFFF` raises the fatal error: `fault` records the reason and the address, no byte
is returned, no other state changes. -/
def Obligations.NoBankingOutOfRangeReadIsFatal : Prop :=
  ∀ (s : State) (a : Addr), s.fault = none → s.params.variant = .noBanking → a &&& 0x8000 = 0x8000 →
    exec (.cartrdNbFatal a) s =
      .next { s with fault := some ⟨.noBankingReadOutOfRange, a⟩, out := ⟨.nothing, none⟩ }

/-- R123: a NoBanking write at any address changes nothing and returns nothing. -/
def Obligations.NoBankingWriteIsNoOp : Prop :=
  ∀ (s : State) (a : Addr) (v : Byte), s.fault = none → s.params.variant = .noBanking →
    exec (.cartwrNb a v) s = .next { s with out := ⟨.nothing, none⟩ }

/-! ### Reads of the BankSwitching cartridge -/

/-- R141: a read below `0x4000` returns the bank 0 byte, whatever is selected. -/
def Obligations.BankZeroIsFixed : Prop :=
  ∀ (s : State) (a : Addr), s.fault = none → s.params.variant = .bankSwitching → 2 ≤ s.params.banks →
    a &&& 0xC000 = 0x0000 →
    exec (.cartrdBsBank0 a) s = .next { s with out := ⟨.byte (s.params.image.read a.toNat), none⟩ }

/-- R142: a read of `0x4000..0x7FFF` returns the byte of the selected bank at offset `addr - 0x4000`. -/
def Obligations.WindowShowsTheSelectedBank : Prop :=
  ∀ (s : State) (a : Addr), s.fault = none → s.params.variant = .bankSwitching →
    1 ≤ s.romSel.toNat → s.romSel.toNat ≤ s.params.banks - 1 → a &&& 0xC000 = 0x4000 →
    exec (.cartrdBsWindow a) s =
      .next { s with out := ⟨.byte (s.params.image.read (s.romSel.toNat * 0x4000 + (a.toNat - 0x4000))), none⟩ }

/-- R143: a read of the RAM window returns the byte of the selected bank when RAM is present and enabled, else `0x00`. -/
def Obligations.CartRamReadIsGated : Prop :=
  ∀ (s : State) (a : Addr), s.fault = none → s.params.variant = .bankSwitching → a &&& 0xE000 = 0xA000 →
    exec (.cartrdBsRam a) s = .next { s with out := ⟨.byte
      (if s.params.hasRam = true ∧ s.ramEn = true then s.ram.read (s.ramSel.toNat * 0x2000 + (a.toNat - 0xA000))
       else 0x00), none⟩ }

/-- R144: a cartridge read of `0x8000..0x9FFF` or `0xC000..0xFFFF` returns `0x00`. -/
def Obligations.OpenCartridgeAddressesReadZero : Prop :=
  ∀ (s : State) (a : Addr), s.fault = none → s.params.variant = .bankSwitching →
    (a &&& 0xE000 = 0x8000 → exec (.cartrdBsOpenLo a) s = .next { s with out := ⟨.byte 0x00, none⟩ }) ∧
    (a &&& 0xC000 = 0xC000 → exec (.cartrdBsOpenHi a) s = .next { s with out := ⟨.byte 0x00, none⟩ })

/-! ### Writes of the BankSwitching cartridge -/

/-- R145: a write to `0x0000..0x1FFF` sets `ram_en` to whether the low nibble is `0xA`, if RAM is present, and changes
nothing without RAM. -/
def Obligations.RamEnableWriteSetsTheFlag : Prop :=
  ∀ (s : State) (a : Addr) (v : Byte), s.fault = none → s.params.variant = .bankSwitching → a &&& 0xE000 = 0x0000 →
    (s.params.hasRam = true → exec (.cartwrBsRamen a v) s =
      .next { s with ramEn := decide (v.toNat % 16 = 0xA), out := ⟨.nothing, none⟩ }) ∧
    (s.params.hasRam = false → exec (.cartwrBsRamen a v) s = .next { s with out := ⟨.nothing, none⟩ })

/-- R146: a write to `0x2000..0x3FFF` selects bank `value & 0x7F` when it is in `1..N-1`; otherwise `reject` keeps the bank,
`clamp` takes 1 for 0 and `N-1` for `N` and above (R147, R148, decision D10). Nothing else changes. -/
def Obligations.RomSelectWrite : Prop :=
  ∀ (s : State) (a : Addr) (v : Byte), s.fault = none → s.params.variant = .bankSwitching → a &&& 0xE000 = 0x2000 →
    2 ≤ s.params.banks →
    ∃ t, exec (.cartwrBsRomsel a v) s = .next t ∧ t = { s with romSel := t.romSel, out := ⟨.nothing, none⟩ } ∧
      (1 ≤ v.toNat % 128 ∧ v.toNat % 128 ≤ s.params.banks - 1 → t.romSel.toNat = v.toNat % 128) ∧
      (v.toNat % 128 = 0 ∨ s.params.banks ≤ v.toNat % 128 → s.params.romOor = .reject → t.romSel = s.romSel) ∧
      (v.toNat % 128 = 0 → s.params.romOor = .clamp → t.romSel.toNat = 1) ∧
      (s.params.banks ≤ v.toNat % 128 → s.params.romOor = .clamp → t.romSel.toNat = s.params.banks - 1)

/-- R149: a write to `0x4000..0x5FFF` selects RAM bank `value & 0x03`, with or without RAM (decision D15). -/
def Obligations.RamSelectWrite : Prop :=
  ∀ (s : State) (a : Addr) (v : Byte), s.fault = none → s.params.variant = .bankSwitching → a &&& 0xE000 = 0x4000 →
    ∃ t, exec (.cartwrBsRamsel a v) s = .next t ∧ t = { s with ramSel := t.ramSel, out := ⟨.nothing, none⟩ } ∧
      t.ramSel.toNat = v.toNat % 4

/-- R151, R153: a cartridge write outside the four ranges changes nothing. -/
def Obligations.OtherCartridgeWritesDoNothing : Prop :=
  ∀ (s : State) (a : Addr) (v : Byte), s.fault = none → s.params.variant = .bankSwitching →
    (a &&& 0xE000 = 0x6000 → exec (.cartwrBsNone6 a v) s = .next { s with out := ⟨.nothing, none⟩ }) ∧
    (a &&& 0xE000 = 0x8000 → exec (.cartwrBsNoneLo a v) s = .next { s with out := ⟨.nothing, none⟩ }) ∧
    (a &&& 0xC000 = 0xC000 → exec (.cartwrBsNoneHi a v) s = .next { s with out := ⟨.nothing, none⟩ })

/-- R152: a write to the RAM window stores the byte at `addr - 0xA000` of the selected bank when RAM is present and
enabled, leaves every other byte of every bank alone, and is dropped otherwise. -/
def Obligations.RamWriteStoresOneByte : Prop :=
  ∀ (s : State) (a : Addr) (v : Byte), s.fault = none → s.params.variant = .bankSwitching → a &&& 0xE000 = 0xA000 →
    s.ram.wf = true →
    (s.params.hasRam = true ∧ s.ramEn = true →
      ∃ t, exec (.cartwrBsRam a v) s = .next t ∧ t = { s with ram := t.ram, out := ⟨.nothing, none⟩ } ∧
        t.ram.read (s.ramSel.toNat * 0x2000 + (a.toNat - 0xA000)) = v ∧
        ∀ k, k ≠ s.ramSel.toNat * 0x2000 + (a.toNat - 0xA000) → t.ram.read k = s.ram.read k) ∧
    (s.params.hasRam = false ∨ s.ramEn = false →
      exec (.cartwrBsRam a v) s = .next { s with out := ⟨.nothing, none⟩ })

/-- R157: with RAM present and enabled, a bus write at `a` is what a bus read at `a` returns next, and bus reads of the
other addresses of the window return what they returned before; with RAM absent or disabled every such read returns `0x00`. -/
def Obligations.RamReadsBackWhatWasWritten : Prop :=
  ∀ (s : State) (a : Addr) (v : Byte), s.fault = none → s.params.variant = .bankSwitching → s.ram.wf = true →
    a &&& 0xE000 = 0xA000 →
    ∃ t, exec (.buswrCartRam a v) s = .next t ∧
      ∀ b : Addr, b &&& 0xE000 = 0xA000 →
        exec (.busrdCartRam b) t = .next { t with out := ⟨.byte
          (if s.params.hasRam = true ∧ s.ramEn = true then
            (if b = a then v else s.ram.read (s.ramSel.toNat * 0x2000 + (b.toNat - 0xA000)))
           else 0x00), none⟩ }

/-! ### The router -/

/-- R241: for every address a bus read is the device read the router's chain of tests selects, whatever the `data` field. -/
def Obligations.BusReadFollowsTheRouter : Prop :=
  ∀ (s : State) (a : Addr) (d : Byte), s.fault = none →
    exec (decode s.params (word 0x0 a d)) s = finishRead s (busRead s a)

/-- R248: for every address a bus write is the device write the router's chain of tests selects. -/
def Obligations.BusWriteFollowsTheRouter : Prop :=
  ∀ (s : State) (a : Addr) (v : Byte), s.fault = none →
    exec (decode s.params (word 0x1 a v)) s = .next (busWrite a v s)

/-- R120, R140: at the cartridge port, every address and either variant, a read is `CartRead` and a write is `CartWrite`. -/
def Obligations.CartridgePortFollowsTheRanges : Prop :=
  ∀ (s : State) (a : Addr) (v : Byte), s.fault = none →
    exec (decode s.params (word 0xA a v)) s = finishRead s (cartRead s a) ∧
    exec (decode s.params (word 0xB a v)) s = .next { cartWrite a v s with out := ⟨.nothing, none⟩ }

/-- R242: a bus read of `0x0000..0x7FFF` returns the byte of the fixed bank below `0x4000` or on NoBanking, and the byte of
the selected bank above. -/
def Obligations.BusReadOfCartridgeRom : Prop :=
  ∀ (s : State) (a : Addr), s.fault = none → s.Inv → a &&& 0x8000 = 0x0000 →
    exec (.busrdCartRom a) s = .next { s with out := ⟨.byte (s.params.image.read
      (if s.params.variant = .noBanking ∨ a.toNat < 0x4000 then a.toNat
       else s.romSel.toNat * 0x4000 + (a.toNat - 0x4000))), none⟩ }

/-- R242, R243: a bus read of the RAM window is gated by RAM presence and enable on BankSwitching, and raises the fatal
error on NoBanking. -/
def Obligations.BusReadOfRamWindow : Prop :=
  ∀ (s : State) (a : Addr), s.fault = none → a &&& 0xE000 = 0xA000 →
    (s.params.variant = .bankSwitching → exec (.busrdCartRam a) s = .next { s with out := ⟨.byte
      (if s.params.hasRam = true ∧ s.ramEn = true then s.ram.read (s.ramSel.toNat * 0x2000 + (a.toNat - 0xA000))
       else 0x00), none⟩ }) ∧
    (s.params.variant = .noBanking → exec (.busrdCartRam a) s =
      .next { s with fault := some ⟨.noBankingReadOutOfRange, a⟩, out := ⟨.nothing, none⟩ })

/-- R249: a bus write in a cartridge range completes, with the effect of the cartridge port's write of the same byte at the
same address, on either variant. -/
def Obligations.BusWriteEqualsCartridgeWrite : Prop :=
  ∀ (s : State) (a : Addr) (v : Byte), s.fault = none →
    (a &&& 0x8000 = 0x0000 → ∃ t, exec (.buswrCartRom a v) s = .next t ∧
      exec (decode s.params (word 0xB a v)) s = .next t) ∧
    (a &&& 0xE000 = 0xA000 → ∃ t, exec (.buswrCartRam a v) s = .next t ∧
      exec (decode s.params (word 0xB a v)) s = .next t)

/-- R244, R251: a read of an unclaimed address returns `0x00` and a write there does nothing; in `EXT_MAP` the read returns
whatever the outside device answers (the draw `extRead`) and the write is handed out, with no state of the block changed
(decision D27, log 6). -/
def Obligations.UnclaimedAddresses : Prop :=
  ∀ (s : State) (a : Addr) (v : Byte) (rd wr : Instr), s.fault = none →
    (rd = .busrdUnclaimedLo a ∧ wr = .buswrUnclaimedLo a v) ∨ (rd = .busrdUnclaimedHi a ∧ wr = .buswrUnclaimedHi a v) →
    (a ∉ s.params.extMap → exec rd s = .next { s with out := ⟨.byte 0x00, none⟩ } ∧
      exec wr s = .next { s with out := ⟨.nothing, none⟩ }) ∧
    (a ∈ s.params.extMap → exec rd s = .next { s with out := ⟨.byte s.draws.extRead, some (.read a)⟩ } ∧
      exec wr s = .next { s with out := ⟨.nothing, some (.write a v)⟩ })

/-- R246, R247, R253, R254: under the reference controller (decision D8) a bus read of `0xFF0F` or `0xFFFF` returns `IF` or
`IE`, and a bus write replaces it. -/
def Obligations.BusAccessOfInterruptRegisters : Prop :=
  ∀ (s : State) (v : Byte), s.fault = none →
    exec .busrdIf s = .next { s with out := ⟨.byte s.ifReg, none⟩ } ∧
    exec .busrdIe s = .next { s with out := ⟨.byte s.ieReg, none⟩ } ∧
    exec (.buswrIf v) s = .next { s with ifReg := v, out := ⟨.nothing, none⟩ } ∧
    exec (.buswrIe v) s = .next { s with ieReg := v, out := ⟨.nothing, none⟩ }

/-! ### The KeyMatrix -/

/-- R202, R245: a KeyMatrix read, at its own port or through the router, returns the row its column select exposes,
zero-extended (decision D23), and `0x00` when no row is selected; the address does not matter. -/
def Obligations.KeyMatrixReadExposesTheSelectedRow : Prop :=
  ∀ (s : State) (a : Addr) (i : Instr), s.fault = none → s.params.selRow0 ≠ s.params.selRow1 →
    i = .kmrd a ∨ i = .busrdKm →
    ∃ b : Byte, exec i s = .next { s with out := ⟨.byte b, none⟩ } ∧
      (s.colSel = s.params.selRow0 → b.toNat = s.row0.toNat) ∧
      (s.colSel = s.params.selRow1 → b.toNat = s.row1.toNat) ∧
      (s.colSel ≠ s.params.selRow0 → s.colSel ≠ s.params.selRow1 → b = 0x00)

/-- R204, R252: a KeyMatrix write, at its own port or through the router, keeps bits `0x30` of the value as the column
select and changes nothing else; the address does not matter (R201, decision D23). -/
def Obligations.KeyMatrixWriteSelectsTheColumn : Prop :=
  ∀ (s : State) (a : Addr) (v : Byte) (i : Instr), s.fault = none → i = .kmwr a v ∨ i = .buswrKm v →
    exec i s = .next { s with colSel := v &&& 0x30, out := ⟨.nothing, none⟩ }

/-- R207: each of the eight key events requests the joypad interrupt and clears exactly its `KEYMAP` bit, both in one step,
and changes nothing else. -/
def Obligations.KeyEventClearsItsOneBit : Prop :=
  ∀ (s : State) (i : Instr) (k : Key), s.fault = none →
    (i, k) ∈ [(Instr.keyUp, Key.up), (.keyDown, .down), (.keyLeft, .left), (.keyRight, .right), (.keyA, .a), (.keyB, .b),
      (.keyStart, .start), (.keySelect, .select)] →
    ∃ t, exec i s = .next t ∧
      t = { s with ifReg := s.ifReg ||| 0x10, row0 := t.row0, row1 := t.row1, out := ⟨.nothing, none⟩ } ∧
      ∀ (r : Fin 2) (j : Fin 4),
        (t.row r).getLsbD j = if s.params.keymap.pos k = ⟨r, j⟩ then false else (s.row r).getLsbD j

/-- R216: an unrecognized token requests the joypad interrupt and changes no row register. -/
def Obligations.UnrecognizedTokenOnlyInterrupts : Prop :=
  ∀ (s : State) (c : BitVec 4), s.fault = none →
    exec (.keyUnrecognized c) s = .next { s with ifReg := s.ifReg ||| 0x10, out := ⟨.nothing, none⟩ }

/-- R192: `RESET` sets both row registers to `0xF` and the column select to `0x00`, and changes nothing else. -/
def Obligations.ResetRestoresTheKeyMatrix : Prop :=
  ∀ s : State, s.fault = none →
    exec .reset s = .next { s with row0 := 0xF, row1 := 0xF, colSel := 0x00, out := ⟨.nothing, none⟩ }

/-- R231: `TICK` has the effect of `RESET`, the column select included (decision D24). -/
def Obligations.TickRestoresTheKeyMatrix : Prop :=
  ∀ s : State, s.fault = none →
    exec .tick s = .next { s with row0 := 0xF, row1 := 0xF, colSel := 0x00, out := ⟨.nothing, none⟩ }

/-- R233: from a state with all keys released, after any sequence of operations, a row bit is 0 exactly when a press of the
key `KEYMAP` puts there stands after the latest `TICK` or `RESET`: no lost and no phantom clears. -/
def Obligations.RowBitsAreExplainedByPresses : Prop :=
  ∀ (rs : List Request) (s t : State), s.row0 = 0xF → s.row1 = 0xF → perform rs s = .next t →
    ∀ (r : Fin 2) (j : Fin 4), (t.row r).getLsbD j = false ↔
      ∃ k, s.params.keymap.pos k = ⟨r, j⟩ ∧ pressedSinceRelease (rs.map fun q => decode s.params q.word) k

/-! ### The interrupt sink -/

/-- R188 to R190: a request ORs its mask into `IF` (unnamed bits like any other, decision D6), a read returns `IF` and does
not clear, a clear takes its mask out (decision D40). -/
def Obligations.InterruptFlagOperations : Prop :=
  ∀ (s : State) (m : Byte), s.fault = none →
    exec (.irqreq m) s = .next { s with ifReg := s.ifReg ||| m, out := ⟨.nothing, none⟩ } ∧
    exec (.ifclr m) s = .next { s with ifReg := s.ifReg &&& ~~~m, out := ⟨.nothing, none⟩ } ∧
    exec .ifrd s = .next { s with out := ⟨.byte s.ifReg, none⟩ }

/-- R194: only the external interrupt controller, by `IFCLR` or by the bus write it performs at `0xFF0F`, ever takes a
pending request out of `IF`. -/
def Obligations.OnlyTheControllerClearsRequests : Prop :=
  ∀ (i : Instr) (s t : State) (j : Nat), exec i s = .next t → s.ifReg.getLsbD j = true → t.ifReg.getLsbD j = false →
    (portOf i).map agentOf = some .interruptController ∨ ∃ v, i = .buswrIf v

/-- R195: a bit of `IF` is set only by a request that carries it, by a key event (bit 4 alone), or by a bus write at
`0xFF0F` that carries it. -/
def Obligations.RequestsComeFromTheirSources : Prop :=
  ∀ (i : Instr) (s t : State) (j : Nat), exec i s = .next t → s.ifReg.getLsbD j = false → t.ifReg.getLsbD j = true →
    (∃ m, i = .irqreq m ∧ m.getLsbD j = true) ∨ (portOf i = some .key ∧ j = 4) ∨
    (∃ v, i = .buswrIf v ∧ v.getLsbD j = true)

/-- R196, R32: no operation but the bus read of `0xFFFF` depends on `IE`: with another `IE` it goes on just the same and
leaves the same state but for `IE`. -/
def Obligations.InterruptEnableIsNotConsulted : Prop :=
  ∀ (i : Instr) (s t : State) (x : Byte), i ≠ .busrdIe → exec i s = .next t →
    ∃ u, exec i { s with ieReg := x } = .next u ∧ u = { t with ieReg := u.ieReg }

/-! ### The save store -/

/-- R172: `SAVE` copies all RAM into the store and answers `ok` when RAM and battery are present and the store does not
fail; it answers `ok` and does nothing without RAM or battery or on NoBanking (R126); a failing store answers
`error(PersistenceError)` and keeps its record (R173, decision D28). -/
def Obligations.SaveWritesTheWholeRecord : Prop :=
  ∀ s : State, s.fault = none →
    (s.params.variant = .noBanking ∨ s.params.hasRam = false ∨ s.params.hasBattery = false →
      exec .save s = .next { s with out := ⟨.ok, none⟩ }) ∧
    (s.params.variant = .bankSwitching → s.params.hasRam = true → s.params.hasBattery = true →
      (s.draws.saveFails = true → exec .save s = .next { s with out := ⟨.error .persistenceError, none⟩ }) ∧
      (s.draws.saveFails = false → exec .save s = .next { s with store := some s.ram, out := ⟨.ok, none⟩ }))

/-- R174: `LOAD` replaces all RAM by the record and answers `ok` when RAM and battery are present, a record exists and the
store does not fail; it answers `ok` and does nothing without RAM or battery or on NoBanking (R126); a missing or
unreadable record answers `error(PersistenceError)` and leaves RAM alone (R175, decision D28). -/
def Obligations.LoadReplacesAllBanks : Prop :=
  ∀ s : State, s.fault = none →
    (s.params.variant = .noBanking ∨ s.params.hasRam = false ∨ s.params.hasBattery = false →
      exec .load s = .next { s with out := ⟨.ok, none⟩ }) ∧
    (s.params.variant = .bankSwitching → s.params.hasRam = true → s.params.hasBattery = true →
      (s.store = none ∨ s.draws.loadFails = true →
        exec .load s = .next { s with out := ⟨.error .persistenceError, none⟩ }) ∧
      (∀ m, s.store = some m → s.draws.loadFails = false →
        exec .load s = .next { s with ram := m, out := ⟨.ok, none⟩ }))

/-- R176: a `SAVE` that answers `ok`, then any operations without a `SAVE`, then a `LOAD` that answers `ok`, bring back the
RAM of the `SAVE` byte for byte, when RAM and battery are present; when either is absent, both operations leave RAM and
store alone. -/
def Obligations.SaveThenLoadRestoresRam : Prop :=
  (∀ (rs : List Request) (s t u v : State), s.params.variant = .bankSwitching → s.params.hasRam = true →
    s.params.hasBattery = true → exec .save s = .next t → t.out.response = .ok →
    (∀ q ∈ rs, decode s.params q.word ≠ .save) → perform rs t = .next u →
    exec .load u = .next v → v.out.response = .ok → v.ram = s.ram) ∧
  (∀ s : State, s.fault = none → s.params.hasRam = false ∨ s.params.hasBattery = false →
    exec .save s = .next { s with out := ⟨.ok, none⟩ } ∧ exec .load s = .next { s with out := ⟨.ok, none⟩ })

/-- R177: a power cycle loses everything but the store: after a `SAVE` that answers `ok` and a power cycle the block is a
fresh one with that record, and a `LOAD` that answers `ok` brings the saved RAM back (power-on values by R40, `rom_sel` by
decision D11). -/
def Obligations.OnlyTheStoreSurvivesAPowerCycle : Prop :=
  ∀ (s t u : State) (ie : Byte) (d : Draws), s.params.variant = .bankSwitching → s.params.hasRam = true →
    s.params.hasBattery = true → exec .save s = .next t → t.out.response = .ok →
    powerCycle ie t = State.powerOn s.params (some s.ram) ie ∧
    (exec .load { powerCycle ie t with draws := d } = .next u → u.out.response = .ok →
      u.ram = s.ram ∧ u.romSel = 1 ∧ u.ramSel = 0 ∧ u.ramEn = true)

/-! ### Boundary -/

/-- R108: a word that is no operation is answered `invalid` and changes no state (that the block goes on is the model's
reading of "not a fault of the block", log 8). -/
def Obligations.InvalidWordChangesNothing : Prop :=
  ∀ (s : State) (k : BitVec 1), s.fault = none → exec (.invalid k) s = .next { s with out := ⟨.invalid, none⟩ }

/-- R273: every operation of the SilentNoOp class, at the cartridge port, routed to the cartridge or at an unclaimed address,
completes, returns `0x00` if it reads and nothing if it writes, and changes no state. -/
def Obligations.SilentNoOpsReturnZeroOrNothing : Prop :=
  ∀ (i : Instr) (s : State), s.fault = none → silentNoOp s i = true →
    exec i s = .next { s with out := ⟨if silentRead i = true then .byte 0x00 else .nothing, none⟩ }

/-! ### Whole-machine rules -/

/-- R155, R23 (g): no operation changes the image; nor any other construction parameter, each "fixed at construction" by R8
of 00_scope.md, which the model holds in `State.params` (log 2). -/
def Obligations.RomIsNeverWritten : Prop :=
  ∀ (i : Instr) (s t : State), exec i s = .next t → t.params = s.params

/-- R158: RAM changes only by a write to the RAM window with RAM present and enabled, and by `LOAD`. -/
def Obligations.RamChangesOnlyByWritesAndLoad : Prop :=
  ∀ (i : Instr) (s t : State), i.wellFormed s.params = true → exec i s = .next t → t.ram ≠ s.ram →
    i = .load ∨ (s.params.hasRam = true ∧ s.ramEn = true ∧ ∃ a v, i = .cartwrBsRam a v ∨ i = .buswrCartRam a v)

/-- R206, R204: the row registers change only by a key event, a `TICK` or a `RESET`; no bus write reaches them. -/
def Obligations.RowsChangeOnlyByKeysAndResets : Prop :=
  ∀ (i : Instr) (s t : State), exec i s = .next t → t.row0 ≠ s.row0 ∨ t.row1 ≠ s.row1 →
    portOf i = some .key ∨ portOf i = some .tick ∨ portOf i = some .reset

/-- R271: the fatal error is raised by a cartridge read at `0x8000` or above on NoBanking, directly or through the router,
and by nothing else; it records the address and changes no other state (the sticky record is decision D18). -/
def Obligations.FatalErrorHasOneCause : Prop :=
  ∀ (i : Instr) (s t : State), i.wellFormed s.params = true → exec i s = .next t → t.fault ≠ none →
    s.params.variant = .noBanking ∧ ∃ a : Addr, 0x8000 ≤ a.toNat ∧ (i = .cartrdNbFatal a ∨ i = .busrdCartRam a) ∧
      t = { s with fault := some ⟨.noBankingReadOutOfRange, a⟩, out := ⟨.nothing, none⟩ }

/-- R77: no device touches another's state. An operation at the cartridge port changes no KeyMatrix, interrupt or store
state; an operation at the key, tick, reset or KeyMatrix port changes no cartridge or store state; a request or a clear
changes `IF` alone. -/
def Obligations.DevicesKeepToTheirOwnState : Prop :=
  ∀ (i : Instr) (s t : State), exec i s = .next t →
    (portOf i = some .cart → t.colSel = s.colSel ∧ t.row0 = s.row0 ∧ t.row1 = s.row1 ∧ t.ifReg = s.ifReg ∧
      t.ieReg = s.ieReg ∧ t.store = s.store) ∧
    (portOf i = some .key ∨ portOf i = some .tick ∨ portOf i = some .reset ∨ portOf i = some .km →
      t.romSel = s.romSel ∧ t.ramSel = s.ramSel ∧ t.ramEn = s.ramEn ∧ t.ram = s.ram ∧ t.ieReg = s.ieReg ∧
      t.store = s.store ∧ t.fault = s.fault) ∧
    (portOf i = some .sink ∨ portOf i = some .intctl → t = { s with ifReg := t.ifReg, out := t.out })

/-- Every operation that does not raise the fatal error is idempotent: performed again at once, with the same draws (log 5),
it completes with the same answer and changes nothing further. R65 says so of reads, writes, `RequestInterrupt` and `KEY`; for
the other operations it follows from R190 (`IFCLR`), R231 (`TICK`), R192 (`RESET`), R172 (`SAVE`), R174 (`LOAD`) and R108 (a word
that is no operation, log 8). -/
def Obligations.OperationsAreIdempotent : Prop :=
  ∀ (i : Instr) (s t : State), s.ram.wf = true → exec i s = .next t → t.fault = none → exec i t = .next t

/-! ### Power-on, construction, invariants -/

/-- R40, R300: power-on values. `rom_sel = 1` is decision D11; `RAM_INIT`, `IF_RESET`, `IE` and `store` are open and stand
as arguments. -/
def Obligations.PowerOnValues : Prop :=
  ∀ (p : Params) (store : Option Memory) (ie : Byte),
    let s := State.powerOn p store ie
    s.params = p ∧ s.romSel = 1 ∧ s.ramSel = 0 ∧ s.ramEn = p.hasRam ∧ (p.hasRam = true → s.ram = p.ramInit) ∧
    s.colSel = 0x00 ∧ s.row0 = 0xF ∧ s.row1 = 0xF ∧ s.ifReg = p.ifReset ∧ s.ieReg = ie ∧ s.store = store ∧
    s.fault = none

/-- R154, R124, R97: a construction succeeds exactly when every check of `BuildArgs.checks` holds, and then yields admitted
parameters: those given, the image's kept bytes as they were, and the bytes beyond them gone. In the spec's own terms (a raw
image and `RAM_INIT` in the model's form, log 11, and KeyMatrix parameters that are admitted, premises throughout): a
BankSwitching construction succeeds when both declared sizes are multiples of their bank, `N >= 2` and the image holds `N`
banks, with `N` the ROM size in banks, RAM present when its size is not 0 and the battery as the flag says; it is refused when
a size is no multiple, when `N < 2`, or when the image is shorter. A NoBanking construction succeeds from any image of 32 KiB
or more, truncated, without RAM or battery, and is refused from a shorter one (decisions D12, D13, D14). -/
def Obligations.ConstructionAdmitsOnlySoundCartridges : Prop :=
  (∀ (b : BuildArgs) (p : Params), construct b = .ok p →
    validParams p = true ∧ p.variant = b.variant ∧ p.keymatrixAddr = b.keymatrixAddr ∧ p.selRow0 = b.selRow0 ∧
    p.selRow1 = b.selRow1 ∧ p.keymap = b.keymap ∧ p.romOor = b.romOor ∧ p.ramInit = b.ramInit ∧ p.ifReset = b.ifReset ∧
    p.extMap = b.extMap ∧ ∀ k, p.image.read k = if k < p.imageSize then b.rawImage.read k else 0x00) ∧
  (∀ b : BuildArgs, (∀ c ∈ b.checks, c.1 = true) ↔ construct b = .ok b.params) ∧
  (∀ b : BuildArgs, Memory.sized b.rawImage b.rawLength = true → Memory.sized b.ramInit Config.ramSize = true →
    keymatrixAddrOk b.keymatrixAddr = true → selectCodesOk b.selRow0 b.selRow1 = true → keymapOk b.keymap = true →
    (b.variant = .bankSwitching → b.romSize % 0x4000 = 0 → b.ramSize % 0x2000 = 0 → 2 ≤ b.romSize / 0x4000 →
      b.romSize / 0x4000 * 0x4000 ≤ b.rawLength →
      ∃ p, construct b = .ok p ∧ p.banks = b.romSize / 0x4000 ∧ p.hasRam = decide (0 < b.ramSize) ∧
        p.hasBattery = b.battery ∧ p.imageSize = b.romSize) ∧
    (b.variant = .noBanking → 0x8000 ≤ b.rawLength →
      ∃ p, construct b = .ok p ∧ p.hasRam = false ∧ p.hasBattery = false ∧ p.imageSize = 0x8000)) ∧
  (∀ b : BuildArgs, b.variant = .bankSwitching →
    b.romSize % 0x4000 ≠ 0 ∨ b.ramSize % 0x2000 ≠ 0 ∨ b.romSize / 0x4000 < 2 ∨ b.rawLength < b.romSize / 0x4000 * 0x4000 →
    ∃ r, construct b = .error r) ∧
  (∀ b : BuildArgs, b.variant = .noBanking → b.rawLength < 0x8000 → ∃ r, construct b = .error r)

/-- R23: `State.reset` meets the invariants (its own values are log 3 and log 4). -/
def Obligations.ResetMeetsTheInvariants : Prop := State.reset.Inv

/-- R23: a block powered on with admitted parameters and a store that is absent or a whole record meets the invariants. -/
def Obligations.PowerOnMeetsTheInvariants : Prop :=
  ∀ (p : Params) (store : Option Memory) (ie : Byte), validParams p = true →
    (∀ m, store = some m → m.sized Config.ramSize = true) → (State.powerOn p store ie).Inv

/-- R23: every step from a state of the invariants leads to a state of the invariants, for every word that may arrive. -/
def Obligations.StepKeepsTheInvariants : Prop :=
  ∀ s t : State, s.Inv → step s = .next t → t.Inv

/-- In a state of the invariants of R23 a running block never stops: whatever word has arrived, its step goes on to a next
state, for reads of cartridge and RAM stay in bounds, a SilentNoOp is no error (R273) and a failing store no exception (R274).
That a step goes on also for a word of kind `0xE` or `0xF` (log 8), with no word waiting (log 1) and through the fatal error
itself (log 7) is the model's choice. On BankSwitching the state reached is running too: no BankSwitching operation raises
the fatal error (R271). -/
def Obligations.SoundBlockNeverStops : Prop :=
  ∀ s : State, s.Inv → s.fault = none →
    ∃ t, step s = .next t ∧ (s.params.variant = .bankSwitching → t.fault = none)
end

