-- ==== Sys2Proof/Laws/Bits.lean ====
section
/-! SUPPORT. The fields of a word, and the address masks of the decode tables as ranges of numbers. -/

namespace Sys2Proof

/-! ### The fields of a word -/

@[simp] theorem kindOf_word (k : BitVec 4) (a : Addr) (d : Byte) : kindOf (word k a d) = k := by
  apply BitVec.eq_of_getLsbD_eq
  intro i hi
  simp only [kindOf, word, BitVec.getLsbD_extractLsb', BitVec.getLsbD_append]
  have h1 : ¬ 24 + i < 8 := by omega
  have h2 : ¬ 24 + i - 8 < 16 := by omega
  simp [h1, h2, hi, show 24 + i - 8 - 16 = i by omega]

@[simp] theorem addrOf_word (k : BitVec 4) (a : Addr) (d : Byte) : addrOf (word k a d) = a := by
  apply BitVec.eq_of_getLsbD_eq
  intro i hi
  simp only [addrOf, word, BitVec.getLsbD_extractLsb', BitVec.getLsbD_append]
  have h1 : ¬ 8 + i < 8 := by omega
  simp [h1, hi]

@[simp] theorem dataOf_word (k : BitVec 4) (a : Addr) (d : Byte) : dataOf (word k a d) = d := by
  apply BitVec.eq_of_getLsbD_eq
  intro i hi
  simp only [dataOf, word, BitVec.getLsbD_extractLsb', BitVec.getLsbD_append]
  simp [hi]

/-- A word is its three fields. -/
theorem word_fields (w : TWord) : word (kindOf w) (addrOf w) (dataOf w) = w := by
  apply BitVec.eq_of_getLsbD_eq
  intro i hi
  simp only [word, kindOf, addrOf, dataOf, BitVec.getLsbD_append, BitVec.getLsbD_extractLsb']
  by_cases h1 : i < 8
  · simp [h1]
  · by_cases h2 : i - 8 < 16
    · simp [h1, h2, show 8 + (i - 8) = i by omega]
    · simp [h1, h2, show 24 + (i - 8 - 16) = i by omega, show i - 8 - 16 < 4 by omega]

/-- Masking works field by field. -/
theorem word_and_word (k k' : BitVec 4) (a a' : Addr) (d d' : Byte) :
    word k a d &&& word k' a' d' = word (k &&& k') (a &&& a') (d &&& d') := by
  apply BitVec.eq_of_getLsbD_eq
  intro i _
  simp only [word, BitVec.getLsbD_append, BitVec.getLsbD_and]
  by_cases h1 : i < 8
  · simp [h1]
  · by_cases h2 : i - 8 < 16 <;> simp [h1, h2]

/-- Two words are equal when their fields are. -/
theorem word_inj (k k' : BitVec 4) (a a' : Addr) (d d' : Byte) :
    word k a d = word k' a' d' ↔ k = k' ∧ a = a' ∧ d = d' := by
  constructor
  · intro h
    refine ⟨?_, ?_, ?_⟩
    · simpa using congrArg kindOf h
    · simpa using congrArg addrOf h
    · simpa using congrArg dataOf h
  · rintro ⟨rfl, rfl, rfl⟩
    rfl

/-- The key code of a word lies in its data. -/
theorem code_word (k : BitVec 4) (a : Addr) (d : Byte) : (word k a d).extractLsb' 0 4 = d.extractLsb' 0 4 := by
  apply BitVec.eq_of_getLsbD_eq
  intro i hi
  simp only [word, BitVec.getLsbD_extractLsb', BitVec.getLsbD_append]
  simp [hi, show i < 8 by omega]

/-- Bit 24 of a word lies in its kind. -/
theorem kindBit_word (k : BitVec 4) (a : Addr) (d : Byte) : (word k a d).extractLsb' 24 1 = k.extractLsb' 0 1 := by
  apply BitVec.eq_of_getLsbD_eq
  intro i hi
  simp only [word, BitVec.getLsbD_extractLsb', BitVec.getLsbD_append]
  have h1 : ¬ 24 + i < 8 := by omega
  have h2 : ¬ 24 + i - 8 < 16 := by omega
  simp [h1, h2, hi, show 24 + i - 8 - 16 = i by omega]

/-! ### Address masks as ranges -/

/-- The top bit of an address. -/
theorem toNat_and_8000 (a : Addr) : (a &&& 0x8000).toNat = a.toNat / 0x8000 * 0x8000 := by
  have h : a &&& (0x8000 : Addr) = (a >>> 15) <<< 15 := by
    apply BitVec.eq_of_getLsbD_eq
    intro i hi
    interval_cases i <;> simp
  rw [h, BitVec.toNat_shiftLeft, BitVec.toNat_ushiftRight, Nat.shiftLeft_eq, Nat.shiftRight_eq_div_pow]
  have := a.isLt
  omega

/-- The top two bits of an address. -/
theorem toNat_and_C000 (a : Addr) : (a &&& 0xC000).toNat = a.toNat / 0x4000 * 0x4000 := by
  have h : a &&& (0xC000 : Addr) = (a >>> 14) <<< 14 := by
    apply BitVec.eq_of_getLsbD_eq
    intro i hi
    interval_cases i <;> simp
  rw [h, BitVec.toNat_shiftLeft, BitVec.toNat_ushiftRight, Nat.shiftLeft_eq, Nat.shiftRight_eq_div_pow]
  have := a.isLt
  omega

/-- The top three bits of an address. -/
theorem toNat_and_E000 (a : Addr) : (a &&& 0xE000).toNat = a.toNat / 0x2000 * 0x2000 := by
  have h : a &&& (0xE000 : Addr) = (a >>> 13) <<< 13 := by
    apply BitVec.eq_of_getLsbD_eq
    intro i hi
    interval_cases i <;> simp
  rw [h, BitVec.toNat_shiftLeft, BitVec.toNat_ushiftRight, Nat.shiftLeft_eq, Nat.shiftRight_eq_div_pow]
  have := a.isLt
  omega

/-- A one-bit range: `addr & 0x8000 = m`. -/
theorem and_8000_eq (a m : Addr) : a &&& 0x8000 = m ↔ a.toNat / 0x8000 * 0x8000 = m.toNat := by
  rw [← BitVec.toNat_inj, toNat_and_8000]

/-- A two-bit range: `addr & 0xC000 = m`. -/
theorem and_C000_eq (a m : Addr) : a &&& 0xC000 = m ↔ a.toNat / 0x4000 * 0x4000 = m.toNat := by
  rw [← BitVec.toNat_inj, toNat_and_C000]

/-- A three-bit range: `addr & 0xE000 = m`. -/
theorem and_E000_eq (a m : Addr) : a &&& 0xE000 = m ↔ a.toNat / 0x2000 * 0x2000 = m.toNat := by
  rw [← BitVec.toNat_inj, toNat_and_E000]

/-! Each `addr & mask = match` of the tables, as the range it stands for (30_encoding.md R94 to R97). -/

theorem range_8000_0000 (a : Addr) : a &&& 0x8000 = 0x0000 ↔ a.toNat ≤ 0x7FFF := by
  rw [and_8000_eq]
  simp only [BitVec.ofNat_eq_ofNat, BitVec.toNat_ofNat]
  have := a.isLt
  omega

theorem range_8000_8000 (a : Addr) : a &&& 0x8000 = 0x8000 ↔ 0x8000 ≤ a.toNat := by
  rw [and_8000_eq]
  simp only [BitVec.ofNat_eq_ofNat, BitVec.toNat_ofNat]
  have := a.isLt
  omega

theorem range_C000_0000 (a : Addr) : a &&& 0xC000 = 0x0000 ↔ a.toNat ≤ 0x3FFF := by
  rw [and_C000_eq]
  simp only [BitVec.ofNat_eq_ofNat, BitVec.toNat_ofNat]
  have := a.isLt
  omega

theorem range_C000_4000 (a : Addr) : a &&& 0xC000 = 0x4000 ↔ 0x4000 ≤ a.toNat ∧ a.toNat ≤ 0x7FFF := by
  rw [and_C000_eq]
  simp only [BitVec.ofNat_eq_ofNat, BitVec.toNat_ofNat]
  have := a.isLt
  omega

theorem range_C000_C000 (a : Addr) : a &&& 0xC000 = 0xC000 ↔ 0xC000 ≤ a.toNat := by
  rw [and_C000_eq]
  simp only [BitVec.ofNat_eq_ofNat, BitVec.toNat_ofNat]
  have := a.isLt
  omega

theorem range_E000_0000 (a : Addr) : a &&& 0xE000 = 0x0000 ↔ a.toNat ≤ 0x1FFF := by
  rw [and_E000_eq]
  simp only [BitVec.ofNat_eq_ofNat, BitVec.toNat_ofNat]
  have := a.isLt
  omega

theorem range_E000_2000 (a : Addr) : a &&& 0xE000 = 0x2000 ↔ 0x2000 ≤ a.toNat ∧ a.toNat ≤ 0x3FFF := by
  rw [and_E000_eq]
  simp only [BitVec.ofNat_eq_ofNat, BitVec.toNat_ofNat]
  have := a.isLt
  omega

theorem range_E000_4000 (a : Addr) : a &&& 0xE000 = 0x4000 ↔ 0x4000 ≤ a.toNat ∧ a.toNat ≤ 0x5FFF := by
  rw [and_E000_eq]
  simp only [BitVec.ofNat_eq_ofNat, BitVec.toNat_ofNat]
  have := a.isLt
  omega

theorem range_E000_6000 (a : Addr) : a &&& 0xE000 = 0x6000 ↔ 0x6000 ≤ a.toNat ∧ a.toNat ≤ 0x7FFF := by
  rw [and_E000_eq]
  simp only [BitVec.ofNat_eq_ofNat, BitVec.toNat_ofNat]
  have := a.isLt
  omega

theorem range_E000_8000 (a : Addr) : a &&& 0xE000 = 0x8000 ↔ 0x8000 ≤ a.toNat ∧ a.toNat ≤ 0x9FFF := by
  rw [and_E000_eq]
  simp only [BitVec.ofNat_eq_ofNat, BitVec.toNat_ofNat]
  have := a.isLt
  omega

theorem range_E000_A000 (a : Addr) : a &&& 0xE000 = 0xA000 ↔ 0xA000 ≤ a.toNat ∧ a.toNat ≤ 0xBFFF := by
  rw [and_E000_eq]
  simp only [BitVec.ofNat_eq_ofNat, BitVec.toNat_ofNat]
  have := a.isLt
  omega

/-- Bit 15 of an address. -/
theorem getLsbD_15 (a : Addr) : a.getLsbD 15 = decide (0x8000 ≤ a.toNat) := by
  rw [BitVec.getLsbD, Nat.testBit, Nat.shiftRight_eq_div_pow]
  have h := a.isLt
  have : a.toNat / 2 ^ 15 = if 0x8000 ≤ a.toNat then 1 else 0 := by split <;> omega
  rw [this]
  split <;> simp_all

namespace Machine

/-! ### Offsets -/

theorem windowOffset_toNat (a : Addr) (h : 0x4000 ≤ a.toNat) (h' : a.toNat ≤ 0x7FFF) :
    (windowOffset a).toNat = a.toNat - 0x4000 := by
  simp only [windowOffset, BitVec.toNat_setWidth, BitVec.toNat_sub, BitVec.ofNat_eq_ofNat, BitVec.toNat_ofNat]
  omega

theorem ramOffset_toNat (a : Addr) (h : 0xA000 ≤ a.toNat) (h' : a.toNat ≤ 0xBFFF) :
    (ramOffset a).toNat = a.toNat - 0xA000 := by
  simp only [ramOffset, BitVec.toNat_setWidth, BitVec.toNat_sub, BitVec.ofNat_eq_ofNat, BitVec.toNat_ofNat]
  omega

/-- The image offset behind a window address, in numbers (20_memory.md R66). -/
theorem windowImageOffset_eq (b : BitVec 7) (a : Addr) (h : 0x4000 ≤ a.toNat) (h' : a.toNat ≤ 0x7FFF) :
    windowImageOffset b a = b.toNat * 0x4000 + (a.toNat - 0x4000) := by
  rw [windowImageOffset, windowOffset_toNat a h h', Config.romBankSize]

/-- The RAM key behind a window address, in numbers (20_memory.md R66). -/
theorem ramKey_eq (b : BitVec 2) (a : Addr) (h : 0xA000 ≤ a.toNat) (h' : a.toNat ≤ 0xBFFF) :
    ramKey b (ramOffset a) = b.toNat * 0x2000 + (a.toNat - 0xA000) := by
  rw [ramKey, ramOffset_toNat a h h', Config.ramBankSize]

/-- A window offset stays inside its bank. -/
theorem windowImageOffset_lt (b : BitVec 7) (a : Addr) (n : Nat) (h : b.toNat < n) :
    windowImageOffset b a < n * Config.romBankSize := by
  have := (windowOffset a).isLt
  simp only [windowImageOffset, Config.romBankSize]
  omega

/-- A RAM key lies inside the four banks. -/
theorem ramKey_lt (b : BitVec 2) (k : BitVec 13) : ramKey b k < Config.ramSize := by
  have := b.isLt
  have := k.isLt
  simp only [ramKey, Config.ramSize, Config.ramBankSize]
  omega

/-- A RAM key names one byte of one bank. -/
theorem ramKey_inj (b b' : BitVec 2) (k k' : BitVec 13) (h : ramKey b k = ramKey b' k') : b = b' ∧ k = k' := by
  have := k.isLt
  have := k'.isLt
  simp only [ramKey, Config.ramBankSize] at h
  constructor <;> apply BitVec.eq_of_toNat_eq <;> omega

/-! ### Sub-fields of a datum -/

theorem romBankField_toNat (v : Byte) : (romBankField v).toNat = v.toNat % 128 := by
  revert v
  decide

theorem ramBankField_toNat (v : Byte) : (ramBankField v).toNat = v.toNat % 4 := by
  revert v
  decide

/-! ### Ranges -/

theorem inRamWindow_iff (a : Addr) : inRamWindow a = true ↔ 0xA000 ≤ a.toNat ∧ a.toNat ≤ 0xBFFF := by
  simp [inRamWindow, BitVec.le_def]

theorem routedToCart_iff (a : Addr) :
    routedToCart a = true ↔ a.toNat ≤ 0x7FFF ∨ (0xA000 ≤ a.toNat ∧ a.toNat ≤ 0xBFFF) := by
  simp [routedToCart, inRamWindow_iff, BitVec.le_def]

end Machine

end Sys2Proof
end

