-- ==== Sys2Proof/Laws/Decode.lean ====
section
/-! SUPPORT. One lemma for each table of the decoder that says everything it can give, and `decode` on the fields of a word. -/

namespace Sys2Proof

/-- A property of all words need only be shown of words put together from their fields. -/
theorem forall_word {P : TWord → Prop} (h : ∀ k a d, P (word k a d)) (w : TWord) : P w := by
  have := h (kindOf w) (addrOf w) (dataOf w)
  rwa [word_fields] at this

/-- `decode` on the fields of a word. -/
theorem decode_word (p : Params) (k : BitVec 4) (a : Addr) (d : Byte) :
    decode p (word k a d) =
      match k.toNat with
      | 0x0 => decodeBusRead p a
      | 0x1 => decodeBusWrite p a d
      | 0x2 => decodeKey (d.extractLsb' 0 4)
      | 0x3 => .tick
      | 0x4 => .reset
      | 0x5 => .save
      | 0x6 => .load
      | 0x7 => .irqreq d
      | 0x8 => .ifclr d
      | 0x9 => .ifrd
      | 0xA => decodeCartRead p a
      | 0xB => decodeCartWrite p a d
      | 0xC => .kmrd a
      | 0xD => .kmwr a d
      | _ => .invalid (k.extractLsb' 0 1) := by
  unfold decode
  simp only [kindOf_word, addrOf_word, dataOf_word, code_word, kindBit_word] <;> rfl

/-- The sixteen kinds. -/
theorem kind_cases (k : BitVec 4) : k = 0x0 ∨ k = 0x1 ∨ k = 0x2 ∨ k = 0x3 ∨ k = 0x4 ∨ k = 0x5 ∨ k = 0x6 ∨ k = 0x7 ∨
    k = 0x8 ∨ k = 0x9 ∨ k = 0xA ∨ k = 0xB ∨ k = 0xC ∨ k = 0xD ∨ k = 0xE ∨ k = 0xF := by
  revert k
  decide

/-- The four ranges of the router below its exact addresses. -/
theorem router_ranges (a : Addr) : a &&& 0x8000 = 0x0000 ∨ a &&& 0xE000 = 0xA000 ∨ a &&& 0xE000 = 0x8000 ∨
    a &&& 0xC000 = 0xC000 := by
  rw [range_8000_0000, range_E000_A000, range_E000_8000, range_C000_C000]
  omega

/-- What the router's decode of a read can give. -/
theorem decodeBusRead_cases (p : Params) (a : Addr) :
    (a = p.keymatrixAddr ∧ decodeBusRead p a = .busrdKm) ∨
    (a ≠ p.keymatrixAddr ∧ a = 0xFF0F ∧ decodeBusRead p a = .busrdIf) ∨
    (a ≠ p.keymatrixAddr ∧ a = 0xFFFF ∧ decodeBusRead p a = .busrdIe) ∨
    (a ≠ p.keymatrixAddr ∧ a ≠ 0xFF0F ∧ a ≠ 0xFFFF ∧
      ((a &&& 0x8000 = 0x0000 ∧ decodeBusRead p a = .busrdCartRom a) ∨
       (a &&& 0xE000 = 0xA000 ∧ decodeBusRead p a = .busrdCartRam a) ∨
       (a &&& 0xE000 = 0x8000 ∧ decodeBusRead p a = .busrdUnclaimedLo a) ∨
       (a &&& 0xC000 = 0xC000 ∧ decodeBusRead p a = .busrdUnclaimedHi a))) := by
  unfold decodeBusRead
  by_cases h1 : a = p.keymatrixAddr
  · exact .inl ⟨h1, if_pos h1⟩
  by_cases h2 : a = 0xFF0F
  · exact .inr (.inl ⟨h1, h2, by rw [if_neg h1, if_pos h2]⟩)
  by_cases h3 : a = 0xFFFF
  · exact .inr (.inr (.inl ⟨h1, h3, by rw [if_neg h1, if_neg h2, if_pos h3]⟩))
  refine .inr (.inr (.inr ⟨h1, h2, h3, ?_⟩))
  rw [if_neg h1, if_neg h2, if_neg h3]
  by_cases h4 : a &&& 0x8000 = 0x0000
  · exact .inl ⟨h4, if_pos h4⟩
  by_cases h5 : a &&& 0xE000 = 0xA000
  · exact .inr (.inl ⟨h5, by rw [if_neg h4, if_pos h5]⟩)
  by_cases h6 : a &&& 0xE000 = 0x8000
  · exact .inr (.inr (.inl ⟨h6, by rw [if_neg h4, if_neg h5, if_pos h6]⟩))
  have h7 := (((router_ranges a).resolve_left h4).resolve_left h5).resolve_left h6
  exact .inr (.inr (.inr ⟨h7, by rw [if_neg h4, if_neg h5, if_neg h6]⟩))

/-- What the router's decode of a write can give. -/
theorem decodeBusWrite_cases (p : Params) (a : Addr) (v : Byte) :
    (a = p.keymatrixAddr ∧ decodeBusWrite p a v = .buswrKm v) ∨
    (a ≠ p.keymatrixAddr ∧ a = 0xFF0F ∧ decodeBusWrite p a v = .buswrIf v) ∨
    (a ≠ p.keymatrixAddr ∧ a = 0xFFFF ∧ decodeBusWrite p a v = .buswrIe v) ∨
    (a ≠ p.keymatrixAddr ∧ a ≠ 0xFF0F ∧ a ≠ 0xFFFF ∧
      ((a &&& 0x8000 = 0x0000 ∧ decodeBusWrite p a v = .buswrCartRom a v) ∨
       (a &&& 0xE000 = 0xA000 ∧ decodeBusWrite p a v = .buswrCartRam a v) ∨
       (a &&& 0xE000 = 0x8000 ∧ decodeBusWrite p a v = .buswrUnclaimedLo a v) ∨
       (a &&& 0xC000 = 0xC000 ∧ decodeBusWrite p a v = .buswrUnclaimedHi a v))) := by
  unfold decodeBusWrite
  by_cases h1 : a = p.keymatrixAddr
  · exact .inl ⟨h1, if_pos h1⟩
  by_cases h2 : a = 0xFF0F
  · exact .inr (.inl ⟨h1, h2, by rw [if_neg h1, if_pos h2]⟩)
  by_cases h3 : a = 0xFFFF
  · exact .inr (.inr (.inl ⟨h1, h3, by rw [if_neg h1, if_neg h2, if_pos h3]⟩))
  refine .inr (.inr (.inr ⟨h1, h2, h3, ?_⟩))
  rw [if_neg h1, if_neg h2, if_neg h3]
  by_cases h4 : a &&& 0x8000 = 0x0000
  · exact .inl ⟨h4, if_pos h4⟩
  by_cases h5 : a &&& 0xE000 = 0xA000
  · exact .inr (.inl ⟨h5, by rw [if_neg h4, if_pos h5]⟩)
  by_cases h6 : a &&& 0xE000 = 0x8000
  · exact .inr (.inr (.inl ⟨h6, by rw [if_neg h4, if_neg h5, if_pos h6]⟩))
  have h7 := (((router_ranges a).resolve_left h4).resolve_left h5).resolve_left h6
  exact .inr (.inr (.inr ⟨h7, by rw [if_neg h4, if_neg h5, if_neg h6]⟩))

/-- What the NoBanking decode of a read can give. -/
theorem decodeCartRead_noBanking {p : Params} (hv : p.variant = .noBanking) (a : Addr) :
    (a &&& 0x8000 = 0x0000 ∧ decodeCartRead p a = .cartrdNbRom a) ∨
    (a &&& 0x8000 = 0x8000 ∧ decodeCartRead p a = .cartrdNbFatal a) := by
  unfold decodeCartRead
  rw [hv]
  by_cases h : a &&& 0x8000 = 0x0000
  · exact .inl ⟨h, if_pos h⟩
  · refine .inr ⟨?_, if_neg h⟩
    rw [range_8000_0000] at h
    rw [range_8000_8000]
    omega

/-- What the BankSwitching decode of a read can give. -/
theorem decodeCartRead_bankSwitching {p : Params} (hv : p.variant = .bankSwitching) (a : Addr) :
    (a &&& 0xC000 = 0x0000 ∧ decodeCartRead p a = .cartrdBsBank0 a) ∨
    (a &&& 0xC000 = 0x4000 ∧ decodeCartRead p a = .cartrdBsWindow a) ∨
    (a &&& 0xE000 = 0xA000 ∧ decodeCartRead p a = .cartrdBsRam a) ∨
    (a &&& 0xE000 = 0x8000 ∧ decodeCartRead p a = .cartrdBsOpenLo a) ∨
    (a &&& 0xC000 = 0xC000 ∧ decodeCartRead p a = .cartrdBsOpenHi a) := by
  unfold decodeCartRead
  rw [hv]
  simp only
  by_cases h1 : a &&& 0xC000 = 0x0000
  · exact .inl ⟨h1, if_pos h1⟩
  by_cases h2 : a &&& 0xC000 = 0x4000
  · exact .inr (.inl ⟨h2, by rw [if_neg h1, if_pos h2]⟩)
  by_cases h3 : a &&& 0xE000 = 0xA000
  · exact .inr (.inr (.inl ⟨h3, by rw [if_neg h1, if_neg h2, if_pos h3]⟩))
  by_cases h4 : a &&& 0xE000 = 0x8000
  · exact .inr (.inr (.inr (.inl ⟨h4, by rw [if_neg h1, if_neg h2, if_neg h3, if_pos h4]⟩)))
  refine .inr (.inr (.inr (.inr ⟨?_, by rw [if_neg h1, if_neg h2, if_neg h3, if_neg h4]⟩)))
  rw [range_C000_0000] at h1
  rw [range_C000_4000] at h2
  rw [range_E000_A000] at h3
  rw [range_E000_8000] at h4
  rw [range_C000_C000]
  omega

/-- What the BankSwitching decode of a write can give. -/
theorem decodeCartWrite_bankSwitching {p : Params} (hv : p.variant = .bankSwitching) (a : Addr) (v : Byte) :
    (a &&& 0xE000 = 0x0000 ∧ decodeCartWrite p a v = .cartwrBsRamen a v) ∨
    (a &&& 0xE000 = 0x2000 ∧ decodeCartWrite p a v = .cartwrBsRomsel a v) ∨
    (a &&& 0xE000 = 0x4000 ∧ decodeCartWrite p a v = .cartwrBsRamsel a v) ∨
    (a &&& 0xE000 = 0x6000 ∧ decodeCartWrite p a v = .cartwrBsNone6 a v) ∨
    (a &&& 0xE000 = 0x8000 ∧ decodeCartWrite p a v = .cartwrBsNoneLo a v) ∨
    (a &&& 0xE000 = 0xA000 ∧ decodeCartWrite p a v = .cartwrBsRam a v) ∨
    (a &&& 0xC000 = 0xC000 ∧ decodeCartWrite p a v = .cartwrBsNoneHi a v) := by
  unfold decodeCartWrite
  rw [hv]
  simp only
  by_cases h1 : a &&& 0xE000 = 0x0000
  · exact .inl ⟨h1, if_pos h1⟩
  by_cases h2 : a &&& 0xE000 = 0x2000
  · exact .inr (.inl ⟨h2, by rw [if_neg h1, if_pos h2]⟩)
  by_cases h3 : a &&& 0xE000 = 0x4000
  · exact .inr (.inr (.inl ⟨h3, by rw [if_neg h1, if_neg h2, if_pos h3]⟩))
  by_cases h4 : a &&& 0xE000 = 0x6000
  · exact .inr (.inr (.inr (.inl ⟨h4, by rw [if_neg h1, if_neg h2, if_neg h3, if_pos h4]⟩)))
  by_cases h5 : a &&& 0xE000 = 0x8000
  · exact .inr (.inr (.inr (.inr (.inl ⟨h5, by rw [if_neg h1, if_neg h2, if_neg h3, if_neg h4, if_pos h5]⟩))))
  by_cases h6 : a &&& 0xE000 = 0xA000
  · exact .inr (.inr (.inr (.inr (.inr (.inl ⟨h6,
      by rw [if_neg h1, if_neg h2, if_neg h3, if_neg h4, if_neg h5, if_pos h6]⟩)))))
  refine .inr (.inr (.inr (.inr (.inr (.inr ⟨?_,
    by rw [if_neg h1, if_neg h2, if_neg h3, if_neg h4, if_neg h5, if_neg h6]⟩)))))
  rw [range_E000_0000] at h1
  rw [range_E000_2000] at h2
  rw [range_E000_4000] at h3
  rw [range_E000_6000] at h4
  rw [range_E000_8000] at h5
  rw [range_E000_A000] at h6
  rw [range_C000_C000]
  omega

/-- What a key code can give: one of the eight keys, or an unrecognized one with bit 3 set. -/
theorem decodeKey_cases (c : BitVec 4) :
    (∃ k, (decodeKey c).pressedKey = some k ∧ c.toNat < 8) ∨ (c &&& 0x8 = 0x8 ∧ decodeKey c = .keyUnrecognized c) := by
  revert c
  decide

/-! ### The opcode table -/

/-- A word put together from its fields matches a row when each field does, and the row exists for the variant. -/
theorem matchesWord_word (p : Params) (k : BitVec 4) (a : Addr) (d : Byte) (n : Nat) (mk : BitVec 4) (ma : Addr) (md : Byte)
    (pk : BitVec 4) (pa : Addr) (pd : Byte) (pr : Nat) (v : Option CartVariant) :
    OpcodeRow.matchesWord p (word k a d) ⟨n, word mk ma md, word pk pa pd, pr, v⟩ =
      (decide (k &&& mk = pk ∧ a &&& ma = pa ∧ d &&& md = pd) && (v == none || v == some p.variant)) := by
  unfold OpcodeRow.matchesWord
  simp only [word_and_word]
  congr 1
  rw [← Bool.coe_iff_coe]
  simp only [beq_iff_eq, word_inj, decide_eq_true_eq]

/-- Rows of another kind are not matched. -/
theorem filter_matchesWord_of_kind (p : Params) (k : BitVec 4) (a : Addr) (d : Byte) (rows : List OpcodeRow)
    (h : ∀ r ∈ rows, k &&& kindOf r.mask ≠ kindOf r.pattern) :
    rows.filter (OpcodeRow.matchesWord p (word k a d)) = [] := by
  rw [List.filter_eq_nil_iff]
  intro r hr hm
  simp only [OpcodeRow.matchesWord, Bool.and_eq_true, beq_iff_eq] at hm
  refine h r hr ?_
  rw [← hm.1]
  conv_rhs => rw [← word_fields r.mask, word_and_word, kindOf_word]

/-- Filtering row by row, without nesting the cases. -/
theorem filter_cons_append {α : Type} (q : α → Bool) (x : α) (l : List α) :
    (x :: l).filter q = (if q x = true then [x] else []) ++ l.filter q := by
  rw [List.filter_cons]
  split <;> rfl

end Sys2Proof
end

