-- ==== Sys2Proof/Laws/Memory.lean ====
section
/-! SUPPORT. The laws of a canonical byte memory: reading what was written, leaving other bytes alone, keeping the form,
and equality of memories that read alike. -/

namespace Sys2Proof.Machine

open Host

@[simp] theorem Memory.read_nil (k : Nat) : Memory.read [] k = Memory.unlisted := rfl

theorem Memory.read_cons (k' : Nat) (v : Byte) (m : Memory) (k : Nat) :
    Memory.read ((k', v) :: m) k = if k = k' then v else Memory.read m k := rfl

theorem Memory.wf_cons (k : Nat) (v : Byte) (m : Memory) :
    Memory.wf ((k, v) :: m) = true ↔ v ≠ Memory.unlisted ∧ (∀ c ∈ m, k < c.1) ∧ Memory.wf m = true := by
  simp [Memory.wf, and_assoc]

theorem Memory.within_cons (c : Cell) (m : Memory) (n : Nat) :
    Memory.within (c :: m) n = true ↔ c.1 < n ∧ Memory.within m n = true := by
  simp [Memory.within]

/-- Below all its keys a memory reads the unlisted byte. -/
theorem Memory.read_of_lt (m : Memory) (k : Nat) (h : ∀ c ∈ m, k < c.1) : Memory.read m k = Memory.unlisted := by
  induction m with
  | nil => rfl
  | cons c m ih =>
    have hk := h c (by simp)
    rw [show c = (c.1, c.2) from rfl, Memory.read_cons, if_neg (by omega)]
    exact ih fun c hc => h c (by simp [hc])

theorem Memory.read_consCell (k : Nat) (v : Byte) (m : Memory) (h : ∀ c ∈ m, k < c.1) (j : Nat) :
    Memory.read (Memory.consCell k v m) j = if j = k then v else Memory.read m j := by
  unfold Memory.consCell
  by_cases hv : v = Memory.unlisted
  · rw [if_pos hv]
    by_cases hj : j = k
    · rw [if_pos hj, hj, Memory.read_of_lt m k h, hv]
    · rw [if_neg hj]
  · rw [if_neg hv, Memory.read_cons]

/-- Reading after a write: the byte written at its key, the old byte elsewhere. -/
theorem Memory.read_write (m : Memory) (h : m.wf = true) (k : Nat) (v : Byte) (j : Nat) :
    Memory.read (Memory.write m k v) j = if j = k then v else Memory.read m j := by
  induction m with
  | nil => exact Memory.read_consCell k v [] (by simp) j
  | cons c m ih =>
    obtain ⟨k', v'⟩ := c
    obtain ⟨_, hlt, hwf⟩ := (Memory.wf_cons _ _ _).1 h
    unfold Memory.write
    by_cases h1 : k < k'
    · rw [if_pos h1, Memory.read_consCell]
      intro c hc
      rcases List.mem_cons.1 hc with rfl | hc
      · exact h1
      · exact Nat.lt_trans h1 (hlt c hc)
    · rw [if_neg h1]
      by_cases h2 : k = k'
      · subst h2
        rw [if_pos rfl, Memory.read_consCell _ _ _ hlt, Memory.read_cons]
        by_cases hj : j = k <;> simp [hj]
      · rw [if_neg h2, Memory.read_cons, Memory.read_cons, ih hwf]
        by_cases hj : j = k
        · subst hj; simp [h2]
        · simp [hj]

theorem Memory.read_write_same (m : Memory) (h : m.wf = true) (k : Nat) (v : Byte) :
    Memory.read (Memory.write m k v) k = v := by simp [Memory.read_write m h]

theorem Memory.read_write_other (m : Memory) (h : m.wf = true) (k j : Nat) (v : Byte) (hj : j ≠ k) :
    Memory.read (Memory.write m k v) j = Memory.read m j := by simp [Memory.read_write m h, hj]

theorem Memory.mem_consCell {k : Nat} {v : Byte} {m : Memory} {c : Cell} (h : c ∈ Memory.consCell k v m) :
    c = (k, v) ∨ c ∈ m := by
  unfold Memory.consCell at h
  split at h
  · exact .inr h
  · exact List.mem_cons.1 h

theorem Memory.wf_consCell {k : Nat} {v : Byte} {m : Memory} (h : ∀ c ∈ m, k < c.1) (hm : m.wf = true) :
    (Memory.consCell k v m).wf = true := by
  unfold Memory.consCell
  split
  · exact hm
  · exact (Memory.wf_cons _ _ _).2 ⟨‹_›, h, hm⟩

/-- Every cell of a written memory is the new one or an old one. -/
theorem Memory.mem_write {m : Memory} {k : Nat} {v : Byte} {c : Cell} (h : c ∈ Memory.write m k v) :
    c = (k, v) ∨ c ∈ m := by
  induction m with
  | nil => exact Memory.mem_consCell h
  | cons d m ih =>
    obtain ⟨k', v'⟩ := d
    unfold Memory.write at h
    split at h
    · exact Memory.mem_consCell h
    · split at h
      · rcases Memory.mem_consCell h with h | h
        · exact .inl h
        · exact .inr (List.mem_cons_of_mem _ h)
      · rcases List.mem_cons.1 h with rfl | h
        · exact .inr (by simp)
        · rcases ih h with h | h
          · exact .inl h
          · exact .inr (List.mem_cons_of_mem _ h)

/-- A write keeps the canonical form. -/
theorem Memory.wf_write (m : Memory) (h : m.wf = true) (k : Nat) (v : Byte) : (m.write k v).wf = true := by
  induction m with
  | nil => exact Memory.wf_consCell (by simp) rfl
  | cons d m ih =>
    obtain ⟨k', v'⟩ := d
    obtain ⟨hv, hlt, hwf⟩ := (Memory.wf_cons _ _ _).1 h
    unfold Memory.write
    split
    · rename_i h1
      refine Memory.wf_consCell ?_ h
      intro c hc
      rcases List.mem_cons.1 hc with rfl | hc
      · exact h1
      · exact Nat.lt_trans h1 (hlt c hc)
    · split
      · rename_i h2
        exact Memory.wf_consCell (h2 ▸ hlt) hwf
      · rename_i h1 h2
        refine (Memory.wf_cons _ _ _).2 ⟨hv, ?_, ih hwf⟩
        intro c hc
        rcases Memory.mem_write hc with rfl | hc
        · show k' < k
          omega
        · exact hlt c hc

/-- A write below `n` stays below `n`. -/
theorem Memory.within_write (m : Memory) (n k : Nat) (v : Byte) (h : m.within n = true) (hk : k < n) :
    (m.write k v).within n = true := by
  simp only [Memory.within, List.all_eq_true, decide_eq_true_eq] at h ⊢
  intro c hc
  rcases Memory.mem_write hc with rfl | hc
  · exact hk
  · exact h c hc

/-- A write below its size keeps a memory canonical and of its size. -/
theorem Memory.sized_write (m : Memory) (n k : Nat) (v : Byte) (h : m.sized n = true) (hk : k < n) :
    (m.write k v).sized n = true := by
  simp only [Memory.sized, Bool.and_eq_true] at h ⊢
  exact ⟨Memory.wf_write m h.1 k v, Memory.within_write m n k v h.2 hk⟩

@[simp] theorem Memory.sized_nil (n : Nat) : Memory.sized [] n = true := rfl

/-- The kept part of a canonical memory is canonical and of the kept size. -/
theorem Memory.sized_truncate (m : Memory) (n : Nat) (h : m.wf = true) : (m.truncate n).sized n = true := by
  have hwf : (m.truncate n).wf = true := by
    induction m with
    | nil => rfl
    | cons c m ih =>
      obtain ⟨k, v⟩ := c
      obtain ⟨hv, hlt, hm⟩ := (Memory.wf_cons _ _ _).1 h
      have hm' := ih hm
      simp only [Memory.truncate, List.filter_cons] at hm' ⊢
      split
      · exact (Memory.wf_cons _ _ _).2 ⟨hv, fun c hc => hlt c (List.mem_filter.1 hc).1, hm'⟩
      · exact hm'
  simp only [Memory.sized, Bool.and_eq_true]
  exact ⟨hwf, by simp [Memory.within, Memory.truncate]⟩

/-- A truncated memory reads as before below the kept size. -/
theorem Memory.read_truncate (m : Memory) (n k : Nat) (hk : k < n) : (m.truncate n).read k = m.read k := by
  induction m with
  | nil => rfl
  | cons c m ih =>
    obtain ⟨k', v⟩ := c
    simp only [Memory.truncate, List.filter_cons] at ih ⊢
    split
    · rw [Memory.read_cons, Memory.read_cons, ih]
    · rename_i h
      simp only [decide_eq_true_eq] at h
      rw [Memory.read_cons, if_neg (by omega), ih]

/-- A truncated memory reads as nothing listed from the kept size on. -/
theorem Memory.read_truncate_beyond (m : Memory) (n k : Nat) (hk : n ≤ k) :
    (m.truncate n).read k = Memory.unlisted := by
  induction m with
  | nil => rfl
  | cons c m ih =>
    obtain ⟨k', v⟩ := c
    simp only [Memory.truncate, List.filter_cons] at ih ⊢
    split
    · rename_i h
      simp only [decide_eq_true_eq] at h
      rw [Memory.read_cons, if_neg (by omega), ih]
    · exact ih

/-- Two canonical memories that read alike at every key are equal. -/
theorem Memory.eq_of_read_eq (m m' : Memory) (h : m.wf = true) (h' : m'.wf = true)
    (heq : ∀ k, m.read k = m'.read k) : m = m' := by
  induction m generalizing m' with
  | nil =>
    cases m' with
    | nil => rfl
    | cons c m' =>
      obtain ⟨k, v⟩ := c
      obtain ⟨hv, -, -⟩ := (Memory.wf_cons _ _ _).1 h'
      have := heq k
      rw [Memory.read_cons, if_pos rfl] at this
      exact absurd this.symm hv
  | cons c m ih =>
    obtain ⟨k, v⟩ := c
    obtain ⟨hv, hlt, hm⟩ := (Memory.wf_cons _ _ _).1 h
    cases m' with
    | nil =>
      have := heq k
      rw [Memory.read_cons, if_pos rfl] at this
      exact absurd this hv
    | cons c' m' =>
      obtain ⟨k', v'⟩ := c'
      obtain ⟨hv', hlt', hm'⟩ := (Memory.wf_cons _ _ _).1 h'
      have hkk : k = k' := by
        rcases Nat.lt_trichotomy k k' with hlt1 | he | hgt
        · have := heq k
          rw [Memory.read_cons, if_pos rfl, Memory.read_cons, if_neg (by omega),
            Memory.read_of_lt m' k fun c hc => Nat.lt_trans hlt1 (hlt' c hc)] at this
          exact absurd this hv
        · exact he
        · have := heq k'
          rw [Memory.read_cons, if_neg (by omega), Memory.read_cons, if_pos rfl,
            Memory.read_of_lt m k' fun c hc => Nat.lt_trans hgt (hlt c hc)] at this
          exact absurd this.symm hv'
      subst hkk
      have hvv : v = v' := by simpa [Memory.read_cons] using heq k
      subst hvv
      rw [ih m' hm hm' fun j => ?_]
      by_cases hj : j = k
      · subst hj
        rw [Memory.read_of_lt m j hlt, Memory.read_of_lt m' j hlt']
      · have := heq j
        rwa [Memory.read_cons, if_neg hj, Memory.read_cons, if_neg hj] at this

end Sys2Proof.Machine
end

