-- ==== Sys2Proof/Laws/State.lean ====
section
/-! SUPPORT. One lemma for each field of the state and each named update, and for each accessor of a row register. -/

namespace Sys2Proof.Machine

variable (s : State)

/-! ### `reply` -/

@[simp] theorem reply_params (r : Response) : (s.reply r).params = s.params := rfl
@[simp] theorem reply_romSel (r : Response) : (s.reply r).romSel = s.romSel := rfl
@[simp] theorem reply_ramSel (r : Response) : (s.reply r).ramSel = s.ramSel := rfl
@[simp] theorem reply_ramEn (r : Response) : (s.reply r).ramEn = s.ramEn := rfl
@[simp] theorem reply_ram (r : Response) : (s.reply r).ram = s.ram := rfl
@[simp] theorem reply_colSel (r : Response) : (s.reply r).colSel = s.colSel := rfl
@[simp] theorem reply_row0 (r : Response) : (s.reply r).row0 = s.row0 := rfl
@[simp] theorem reply_row1 (r : Response) : (s.reply r).row1 = s.row1 := rfl
@[simp] theorem reply_ifReg (r : Response) : (s.reply r).ifReg = s.ifReg := rfl
@[simp] theorem reply_ieReg (r : Response) : (s.reply r).ieReg = s.ieReg := rfl
@[simp] theorem reply_store (r : Response) : (s.reply r).store = s.store := rfl
@[simp] theorem reply_fault (r : Response) : (s.reply r).fault = s.fault := rfl
@[simp] theorem reply_inbox (r : Response) : (s.reply r).inbox = s.inbox := rfl
@[simp] theorem reply_draws (r : Response) : (s.reply r).draws = s.draws := rfl
@[simp] theorem reply_out (r : Response) : (s.reply r).out = ⟨r, none⟩ := rfl

/-! ### `replyExternal` -/

@[simp] theorem replyExternal_params (r : Response) (x : ExtAccess) : (s.replyExternal r x).params = s.params := rfl
@[simp] theorem replyExternal_romSel (r : Response) (x : ExtAccess) : (s.replyExternal r x).romSel = s.romSel := rfl
@[simp] theorem replyExternal_ramSel (r : Response) (x : ExtAccess) : (s.replyExternal r x).ramSel = s.ramSel := rfl
@[simp] theorem replyExternal_ramEn (r : Response) (x : ExtAccess) : (s.replyExternal r x).ramEn = s.ramEn := rfl
@[simp] theorem replyExternal_ram (r : Response) (x : ExtAccess) : (s.replyExternal r x).ram = s.ram := rfl
@[simp] theorem replyExternal_colSel (r : Response) (x : ExtAccess) : (s.replyExternal r x).colSel = s.colSel := rfl
@[simp] theorem replyExternal_row0 (r : Response) (x : ExtAccess) : (s.replyExternal r x).row0 = s.row0 := rfl
@[simp] theorem replyExternal_row1 (r : Response) (x : ExtAccess) : (s.replyExternal r x).row1 = s.row1 := rfl
@[simp] theorem replyExternal_ifReg (r : Response) (x : ExtAccess) : (s.replyExternal r x).ifReg = s.ifReg := rfl
@[simp] theorem replyExternal_ieReg (r : Response) (x : ExtAccess) : (s.replyExternal r x).ieReg = s.ieReg := rfl
@[simp] theorem replyExternal_store (r : Response) (x : ExtAccess) : (s.replyExternal r x).store = s.store := rfl
@[simp] theorem replyExternal_fault (r : Response) (x : ExtAccess) : (s.replyExternal r x).fault = s.fault := rfl
@[simp] theorem replyExternal_inbox (r : Response) (x : ExtAccess) : (s.replyExternal r x).inbox = s.inbox := rfl
@[simp] theorem replyExternal_draws (r : Response) (x : ExtAccess) : (s.replyExternal r x).draws = s.draws := rfl
@[simp] theorem replyExternal_out (r : Response) (x : ExtAccess) : (s.replyExternal r x).out = ⟨r, some x⟩ := rfl

/-! ### `accept` -/

@[simp] theorem accept_params (q : Request) (rest : List Request) : (s.accept q rest).params = s.params := rfl
@[simp] theorem accept_romSel (q : Request) (rest : List Request) : (s.accept q rest).romSel = s.romSel := rfl
@[simp] theorem accept_ramSel (q : Request) (rest : List Request) : (s.accept q rest).ramSel = s.ramSel := rfl
@[simp] theorem accept_ramEn (q : Request) (rest : List Request) : (s.accept q rest).ramEn = s.ramEn := rfl
@[simp] theorem accept_ram (q : Request) (rest : List Request) : (s.accept q rest).ram = s.ram := rfl
@[simp] theorem accept_colSel (q : Request) (rest : List Request) : (s.accept q rest).colSel = s.colSel := rfl
@[simp] theorem accept_row0 (q : Request) (rest : List Request) : (s.accept q rest).row0 = s.row0 := rfl
@[simp] theorem accept_row1 (q : Request) (rest : List Request) : (s.accept q rest).row1 = s.row1 := rfl
@[simp] theorem accept_ifReg (q : Request) (rest : List Request) : (s.accept q rest).ifReg = s.ifReg := rfl
@[simp] theorem accept_ieReg (q : Request) (rest : List Request) : (s.accept q rest).ieReg = s.ieReg := rfl
@[simp] theorem accept_store (q : Request) (rest : List Request) : (s.accept q rest).store = s.store := rfl
@[simp] theorem accept_fault (q : Request) (rest : List Request) : (s.accept q rest).fault = s.fault := rfl
@[simp] theorem accept_inbox (q : Request) (rest : List Request) : (s.accept q rest).inbox = rest := rfl
@[simp] theorem accept_draws (q : Request) (rest : List Request) : (s.accept q rest).draws = q.draws := rfl
@[simp] theorem accept_out (q : Request) (rest : List Request) : (s.accept q rest).out = s.out := rfl

/-! ### `requestInterrupt` -/

@[simp] theorem requestInterrupt_params (m : Byte) : (requestInterrupt m s).params = s.params := rfl
@[simp] theorem requestInterrupt_romSel (m : Byte) : (requestInterrupt m s).romSel = s.romSel := rfl
@[simp] theorem requestInterrupt_ramSel (m : Byte) : (requestInterrupt m s).ramSel = s.ramSel := rfl
@[simp] theorem requestInterrupt_ramEn (m : Byte) : (requestInterrupt m s).ramEn = s.ramEn := rfl
@[simp] theorem requestInterrupt_ram (m : Byte) : (requestInterrupt m s).ram = s.ram := rfl
@[simp] theorem requestInterrupt_colSel (m : Byte) : (requestInterrupt m s).colSel = s.colSel := rfl
@[simp] theorem requestInterrupt_row0 (m : Byte) : (requestInterrupt m s).row0 = s.row0 := rfl
@[simp] theorem requestInterrupt_row1 (m : Byte) : (requestInterrupt m s).row1 = s.row1 := rfl
@[simp] theorem requestInterrupt_ifReg (m : Byte) : (requestInterrupt m s).ifReg = s.ifReg ||| m := rfl
@[simp] theorem requestInterrupt_ieReg (m : Byte) : (requestInterrupt m s).ieReg = s.ieReg := rfl
@[simp] theorem requestInterrupt_store (m : Byte) : (requestInterrupt m s).store = s.store := rfl
@[simp] theorem requestInterrupt_fault (m : Byte) : (requestInterrupt m s).fault = s.fault := rfl
@[simp] theorem requestInterrupt_inbox (m : Byte) : (requestInterrupt m s).inbox = s.inbox := rfl
@[simp] theorem requestInterrupt_draws (m : Byte) : (requestInterrupt m s).draws = s.draws := rfl
@[simp] theorem requestInterrupt_out (m : Byte) : (requestInterrupt m s).out = s.out := rfl

/-! ### `clearInterrupts` -/

@[simp] theorem clearInterrupts_params (m : Byte) : (clearInterrupts m s).params = s.params := rfl
@[simp] theorem clearInterrupts_romSel (m : Byte) : (clearInterrupts m s).romSel = s.romSel := rfl
@[simp] theorem clearInterrupts_ramSel (m : Byte) : (clearInterrupts m s).ramSel = s.ramSel := rfl
@[simp] theorem clearInterrupts_ramEn (m : Byte) : (clearInterrupts m s).ramEn = s.ramEn := rfl
@[simp] theorem clearInterrupts_ram (m : Byte) : (clearInterrupts m s).ram = s.ram := rfl
@[simp] theorem clearInterrupts_colSel (m : Byte) : (clearInterrupts m s).colSel = s.colSel := rfl
@[simp] theorem clearInterrupts_row0 (m : Byte) : (clearInterrupts m s).row0 = s.row0 := rfl
@[simp] theorem clearInterrupts_row1 (m : Byte) : (clearInterrupts m s).row1 = s.row1 := rfl
@[simp] theorem clearInterrupts_ifReg (m : Byte) : (clearInterrupts m s).ifReg = s.ifReg &&& ~~~m := rfl
@[simp] theorem clearInterrupts_ieReg (m : Byte) : (clearInterrupts m s).ieReg = s.ieReg := rfl
@[simp] theorem clearInterrupts_store (m : Byte) : (clearInterrupts m s).store = s.store := rfl
@[simp] theorem clearInterrupts_fault (m : Byte) : (clearInterrupts m s).fault = s.fault := rfl
@[simp] theorem clearInterrupts_inbox (m : Byte) : (clearInterrupts m s).inbox = s.inbox := rfl
@[simp] theorem clearInterrupts_draws (m : Byte) : (clearInterrupts m s).draws = s.draws := rfl
@[simp] theorem clearInterrupts_out (m : Byte) : (clearInterrupts m s).out = s.out := rfl

/-! ### `writeIf` -/

@[simp] theorem writeIf_params (v : Byte) : (writeIf v s).params = s.params := rfl
@[simp] theorem writeIf_romSel (v : Byte) : (writeIf v s).romSel = s.romSel := rfl
@[simp] theorem writeIf_ramSel (v : Byte) : (writeIf v s).ramSel = s.ramSel := rfl
@[simp] theorem writeIf_ramEn (v : Byte) : (writeIf v s).ramEn = s.ramEn := rfl
@[simp] theorem writeIf_ram (v : Byte) : (writeIf v s).ram = s.ram := rfl
@[simp] theorem writeIf_colSel (v : Byte) : (writeIf v s).colSel = s.colSel := rfl
@[simp] theorem writeIf_row0 (v : Byte) : (writeIf v s).row0 = s.row0 := rfl
@[simp] theorem writeIf_row1 (v : Byte) : (writeIf v s).row1 = s.row1 := rfl
@[simp] theorem writeIf_ifReg (v : Byte) : (writeIf v s).ifReg = v := rfl
@[simp] theorem writeIf_ieReg (v : Byte) : (writeIf v s).ieReg = s.ieReg := rfl
@[simp] theorem writeIf_store (v : Byte) : (writeIf v s).store = s.store := rfl
@[simp] theorem writeIf_fault (v : Byte) : (writeIf v s).fault = s.fault := rfl
@[simp] theorem writeIf_inbox (v : Byte) : (writeIf v s).inbox = s.inbox := rfl
@[simp] theorem writeIf_draws (v : Byte) : (writeIf v s).draws = s.draws := rfl
@[simp] theorem writeIf_out (v : Byte) : (writeIf v s).out = s.out := rfl

/-! ### `writeIe` -/

@[simp] theorem writeIe_params (v : Byte) : (writeIe v s).params = s.params := rfl
@[simp] theorem writeIe_romSel (v : Byte) : (writeIe v s).romSel = s.romSel := rfl
@[simp] theorem writeIe_ramSel (v : Byte) : (writeIe v s).ramSel = s.ramSel := rfl
@[simp] theorem writeIe_ramEn (v : Byte) : (writeIe v s).ramEn = s.ramEn := rfl
@[simp] theorem writeIe_ram (v : Byte) : (writeIe v s).ram = s.ram := rfl
@[simp] theorem writeIe_colSel (v : Byte) : (writeIe v s).colSel = s.colSel := rfl
@[simp] theorem writeIe_row0 (v : Byte) : (writeIe v s).row0 = s.row0 := rfl
@[simp] theorem writeIe_row1 (v : Byte) : (writeIe v s).row1 = s.row1 := rfl
@[simp] theorem writeIe_ifReg (v : Byte) : (writeIe v s).ifReg = s.ifReg := rfl
@[simp] theorem writeIe_ieReg (v : Byte) : (writeIe v s).ieReg = v := rfl
@[simp] theorem writeIe_store (v : Byte) : (writeIe v s).store = s.store := rfl
@[simp] theorem writeIe_fault (v : Byte) : (writeIe v s).fault = s.fault := rfl
@[simp] theorem writeIe_inbox (v : Byte) : (writeIe v s).inbox = s.inbox := rfl
@[simp] theorem writeIe_draws (v : Byte) : (writeIe v s).draws = s.draws := rfl
@[simp] theorem writeIe_out (v : Byte) : (writeIe v s).out = s.out := rfl

/-! ### `kmWrite` -/

@[simp] theorem kmWrite_params (v : Byte) : (kmWrite v s).params = s.params := rfl
@[simp] theorem kmWrite_romSel (v : Byte) : (kmWrite v s).romSel = s.romSel := rfl
@[simp] theorem kmWrite_ramSel (v : Byte) : (kmWrite v s).ramSel = s.ramSel := rfl
@[simp] theorem kmWrite_ramEn (v : Byte) : (kmWrite v s).ramEn = s.ramEn := rfl
@[simp] theorem kmWrite_ram (v : Byte) : (kmWrite v s).ram = s.ram := rfl
@[simp] theorem kmWrite_colSel (v : Byte) : (kmWrite v s).colSel = v &&& 0x30 := rfl
@[simp] theorem kmWrite_row0 (v : Byte) : (kmWrite v s).row0 = s.row0 := rfl
@[simp] theorem kmWrite_row1 (v : Byte) : (kmWrite v s).row1 = s.row1 := rfl
@[simp] theorem kmWrite_ifReg (v : Byte) : (kmWrite v s).ifReg = s.ifReg := rfl
@[simp] theorem kmWrite_ieReg (v : Byte) : (kmWrite v s).ieReg = s.ieReg := rfl
@[simp] theorem kmWrite_store (v : Byte) : (kmWrite v s).store = s.store := rfl
@[simp] theorem kmWrite_fault (v : Byte) : (kmWrite v s).fault = s.fault := rfl
@[simp] theorem kmWrite_inbox (v : Byte) : (kmWrite v s).inbox = s.inbox := rfl
@[simp] theorem kmWrite_draws (v : Byte) : (kmWrite v s).draws = s.draws := rfl
@[simp] theorem kmWrite_out (v : Byte) : (kmWrite v s).out = s.out := rfl

/-! ### `keyMatrixReset` -/

@[simp] theorem keyMatrixReset_params : (keyMatrixReset s).params = s.params := rfl
@[simp] theorem keyMatrixReset_romSel : (keyMatrixReset s).romSel = s.romSel := rfl
@[simp] theorem keyMatrixReset_ramSel : (keyMatrixReset s).ramSel = s.ramSel := rfl
@[simp] theorem keyMatrixReset_ramEn : (keyMatrixReset s).ramEn = s.ramEn := rfl
@[simp] theorem keyMatrixReset_ram : (keyMatrixReset s).ram = s.ram := rfl
@[simp] theorem keyMatrixReset_colSel : (keyMatrixReset s).colSel = 0x00 := rfl
@[simp] theorem keyMatrixReset_row0 : (keyMatrixReset s).row0 = 0xF := rfl
@[simp] theorem keyMatrixReset_row1 : (keyMatrixReset s).row1 = 0xF := rfl
@[simp] theorem keyMatrixReset_ifReg : (keyMatrixReset s).ifReg = s.ifReg := rfl
@[simp] theorem keyMatrixReset_ieReg : (keyMatrixReset s).ieReg = s.ieReg := rfl
@[simp] theorem keyMatrixReset_store : (keyMatrixReset s).store = s.store := rfl
@[simp] theorem keyMatrixReset_fault : (keyMatrixReset s).fault = s.fault := rfl
@[simp] theorem keyMatrixReset_inbox : (keyMatrixReset s).inbox = s.inbox := rfl
@[simp] theorem keyMatrixReset_draws : (keyMatrixReset s).draws = s.draws := rfl
@[simp] theorem keyMatrixReset_out : (keyMatrixReset s).out = s.out := rfl

/-! ### `bsWriteRomSelect` -/

@[simp] theorem bsWriteRomSelect_params (v : Byte) : (bsWriteRomSelect v s).params = s.params := rfl
@[simp] theorem bsWriteRomSelect_romSel (v : Byte) : (bsWriteRomSelect v s).romSel = selectedRomBank s.params.romOor s.params.banks v s.romSel := rfl
@[simp] theorem bsWriteRomSelect_ramSel (v : Byte) : (bsWriteRomSelect v s).ramSel = s.ramSel := rfl
@[simp] theorem bsWriteRomSelect_ramEn (v : Byte) : (bsWriteRomSelect v s).ramEn = s.ramEn := rfl
@[simp] theorem bsWriteRomSelect_ram (v : Byte) : (bsWriteRomSelect v s).ram = s.ram := rfl
@[simp] theorem bsWriteRomSelect_colSel (v : Byte) : (bsWriteRomSelect v s).colSel = s.colSel := rfl
@[simp] theorem bsWriteRomSelect_row0 (v : Byte) : (bsWriteRomSelect v s).row0 = s.row0 := rfl
@[simp] theorem bsWriteRomSelect_row1 (v : Byte) : (bsWriteRomSelect v s).row1 = s.row1 := rfl
@[simp] theorem bsWriteRomSelect_ifReg (v : Byte) : (bsWriteRomSelect v s).ifReg = s.ifReg := rfl
@[simp] theorem bsWriteRomSelect_ieReg (v : Byte) : (bsWriteRomSelect v s).ieReg = s.ieReg := rfl
@[simp] theorem bsWriteRomSelect_store (v : Byte) : (bsWriteRomSelect v s).store = s.store := rfl
@[simp] theorem bsWriteRomSelect_fault (v : Byte) : (bsWriteRomSelect v s).fault = s.fault := rfl
@[simp] theorem bsWriteRomSelect_inbox (v : Byte) : (bsWriteRomSelect v s).inbox = s.inbox := rfl
@[simp] theorem bsWriteRomSelect_draws (v : Byte) : (bsWriteRomSelect v s).draws = s.draws := rfl
@[simp] theorem bsWriteRomSelect_out (v : Byte) : (bsWriteRomSelect v s).out = s.out := rfl

/-! ### `bsWriteRamSelect` -/

@[simp] theorem bsWriteRamSelect_params (v : Byte) : (bsWriteRamSelect v s).params = s.params := rfl
@[simp] theorem bsWriteRamSelect_romSel (v : Byte) : (bsWriteRamSelect v s).romSel = s.romSel := rfl
@[simp] theorem bsWriteRamSelect_ramSel (v : Byte) : (bsWriteRamSelect v s).ramSel = ramBankField v := rfl
@[simp] theorem bsWriteRamSelect_ramEn (v : Byte) : (bsWriteRamSelect v s).ramEn = s.ramEn := rfl
@[simp] theorem bsWriteRamSelect_ram (v : Byte) : (bsWriteRamSelect v s).ram = s.ram := rfl
@[simp] theorem bsWriteRamSelect_colSel (v : Byte) : (bsWriteRamSelect v s).colSel = s.colSel := rfl
@[simp] theorem bsWriteRamSelect_row0 (v : Byte) : (bsWriteRamSelect v s).row0 = s.row0 := rfl
@[simp] theorem bsWriteRamSelect_row1 (v : Byte) : (bsWriteRamSelect v s).row1 = s.row1 := rfl
@[simp] theorem bsWriteRamSelect_ifReg (v : Byte) : (bsWriteRamSelect v s).ifReg = s.ifReg := rfl
@[simp] theorem bsWriteRamSelect_ieReg (v : Byte) : (bsWriteRamSelect v s).ieReg = s.ieReg := rfl
@[simp] theorem bsWriteRamSelect_store (v : Byte) : (bsWriteRamSelect v s).store = s.store := rfl
@[simp] theorem bsWriteRamSelect_fault (v : Byte) : (bsWriteRamSelect v s).fault = s.fault := rfl
@[simp] theorem bsWriteRamSelect_inbox (v : Byte) : (bsWriteRamSelect v s).inbox = s.inbox := rfl
@[simp] theorem bsWriteRamSelect_draws (v : Byte) : (bsWriteRamSelect v s).draws = s.draws := rfl
@[simp] theorem bsWriteRamSelect_out (v : Byte) : (bsWriteRamSelect v s).out = s.out := rfl

/-! ### Row registers -/

@[simp] theorem row_zero : s.row 0 = s.row0 := rfl
@[simp] theorem row_one : s.row 1 = s.row1 := rfl

end Sys2Proof.Machine
end

