-- ==== Sys2Proof/Laws/Ops.lean ====
section
/-! SUPPORT. One lemma for each shared operation that says everything it can do, and one that says so of `exec`. -/

namespace Sys2Proof.Machine

/-! ### Running and terminal blocks -/

theorem whileRunning_running (s : State) (o : Result) (h : s.fault = none) : whileRunning s o = o := by
  simp [whileRunning, h]

theorem whileRunning_terminal (s : State) (o : Result) (f : FatalRecord) (h : s.fault = some f) :
    whileRunning s o = .refused (.terminated f) := by
  simp [whileRunning, h]

theorem whileRunning_next (s : State) (o : Result) (t : State) :
    whileRunning s o = .next t ↔ s.fault = none ∧ o = .next t := by
  cases h : s.fault <;> simp [whileRunning, h]

/-! ### Reads -/

/-- A read that goes on changes the output only, or takes the fatal error. -/
theorem finishRead_next {s t : State} {r : ReadResult} (h : finishRead s r = .next t) :
    (∃ b, r = .byte b ∧ t = s.reply (.byte b)) ∨
    (∃ a b, r = .external a b ∧ t = s.replyExternal (.byte b) (.read a)) ∨
    (∃ reason a, r = .fatal reason a ∧ t = { s with fault := some ⟨reason, a⟩, out := ⟨.nothing, none⟩ }) := by
  cases r with
  | byte b => exact .inl ⟨b, rfl, (Host.Outcome.next.inj h).symm⟩
  | external a b => exact .inr (.inl ⟨a, b, rfl, (Host.Outcome.next.inj h).symm⟩)
  | fatal reason a => exact .inr (.inr ⟨reason, a, rfl, (Host.Outcome.next.inj h).symm⟩)
  | noImageByte o => cases h

/-- A read of the image returns a byte or finds none. -/
theorem readImage_cases (s : State) (o : Nat) :
    (o < s.params.imageSize ∧ readImage s o = .byte (s.params.image.read o)) ∨
    (¬ o < s.params.imageSize ∧ readImage s o = .noImageByte o) := by
  by_cases h : o < s.params.imageSize <;> simp [readImage, h]

/-- A cartridge read is a byte, a missing image byte, or, on NoBanking from `0x8000` on, the fatal error. -/
theorem cartRead_cases (s : State) (a : Addr) :
    (∃ b, cartRead s a = .byte b) ∨ (∃ o, cartRead s a = .noImageByte o) ∨
    (s.params.variant = .noBanking ∧ 0x8000 ≤ a.toNat ∧ cartRead s a = .fatal .noBankingReadOutOfRange a) := by
  have image (o : Nat) : (∃ b, readImage s o = .byte b) ∨ (∃ o', readImage s o = .noImageByte o') := by
    rcases readImage_cases s o with ⟨-, h⟩ | ⟨-, h⟩
    · exact .inl ⟨_, h⟩
    · exact .inr ⟨_, h⟩
  unfold cartRead
  cases hv : s.params.variant with
  | noBanking =>
    by_cases h : a.getLsbD 15 = false
    · simp only [h, if_pos]
      exact (image a.toNat).imp id .inl
    · simp only [h]
      rw [getLsbD_15] at h
      simp only [decide_eq_false_iff_not, not_not] at h
      exact .inr (.inr ⟨trivial, h, rfl⟩)
  | bankSwitching =>
    simp only
    split
    · exact (image _).imp id .inl
    · split
      · exact (image _).imp id .inl
      · split
        · unfold bsReadRam
          split <;> exact .inl ⟨_, rfl⟩
        · exact .inl ⟨_, rfl⟩

/-- A read at an offset the image holds returns its byte. -/
theorem readImage_byte {s : State} {o : Nat} (h : o < s.params.imageSize) :
    readImage s o = .byte (s.params.image.read o) := by
  rw [readImage, if_pos h]

/-- The size of a NoBanking image. -/
theorem imageSize_noBanking {p : Params} (h : p.variant = .noBanking) : p.imageSize = 0x8000 := by
  rw [Params.imageSize, h]
  rfl

/-- The size of a BankSwitching image. -/
theorem imageSize_bankSwitching {p : Params} (h : p.variant = .bankSwitching) : p.imageSize = p.banks * 0x4000 := by
  rw [Params.imageSize, h]
  rfl

/-! ### Cartridge writes -/

theorem enablesRam_eq (v : Byte) : enablesRam v = decide (v.toNat % 16 = 0xA) := by
  revert v
  decide

/-- What a cartridge write can do: nothing, or the one register or RAM byte of its range on BankSwitching. -/
theorem cartWrite_cases (a : Addr) (v : Byte) (s : State) :
    cartWrite a v s = s ∨
    (s.params.variant = .bankSwitching ∧
      ((a.toNat ≤ 0x1FFF ∧ cartWrite a v s = bsWriteRamEnable v s) ∨
       (0x2000 ≤ a.toNat ∧ a.toNat ≤ 0x3FFF ∧ cartWrite a v s = bsWriteRomSelect v s) ∨
       (0x4000 ≤ a.toNat ∧ a.toNat ≤ 0x5FFF ∧ cartWrite a v s = bsWriteRamSelect v s) ∨
       (0xA000 ≤ a.toNat ∧ a.toNat ≤ 0xBFFF ∧ cartWrite a v s = bsWriteRam a v s))) := by
  unfold cartWrite
  cases hv : s.params.variant with
  | noBanking => exact .inl rfl
  | bankSwitching =>
    simp only [BitVec.le_def, BitVec.toNat_ofNat]
    split
    · exact .inr ⟨trivial, .inl ⟨by omega, rfl⟩⟩
    · split
      · exact .inr ⟨trivial, .inr (.inl ⟨by omega, by omega, rfl⟩)⟩
      · split
        · exact .inr ⟨trivial, .inr (.inr (.inl ⟨by omega, by omega, rfl⟩))⟩
        · split
          · exact .inl rfl
          · split
            · rename_i h
              have := (inRamWindow_iff a).1 h
              exact .inr ⟨trivial, .inr (.inr (.inr ⟨by omega, by omega, rfl⟩))⟩
            · exact .inl rfl

/-- A cartridge write on NoBanking does nothing (40_cartridge_nobanking.md R123). -/
theorem cartWrite_noBanking {s : State} (hv : s.params.variant = .noBanking) (a : Addr) (v : Byte) : cartWrite a v s = s := by
  rw [cartWrite, hv]
  rfl

/-- `0x0000` to `0x1FFF` is the RAM-enable range. -/
theorem cartWrite_ramEnable {s : State} (hv : s.params.variant = .bankSwitching) {a : Addr} (ha : a &&& 0xE000 = 0x0000) (v : Byte) :
    cartWrite a v s = bsWriteRamEnable v s := by
  rw [range_E000_0000] at ha
  simp only [cartWrite, hv, BitVec.le_def, BitVec.toNat_ofNat]
  rw [if_pos (by omega)]

/-- `0x6000` to `0x7FFF` has no effect. -/
theorem cartWrite_none6 {s : State} (hv : s.params.variant = .bankSwitching) {a : Addr} (ha : a &&& 0xE000 = 0x6000) (v : Byte) :
    cartWrite a v s = s := by
  rw [range_E000_6000] at ha
  simp only [cartWrite, hv, BitVec.le_def, BitVec.toNat_ofNat]
  rw [if_neg (by omega), if_neg (by omega), if_neg (by omega), if_pos (by omega)]
  rfl

/-- `0xA000` to `0xBFFF` is the RAM window, for writes. -/
theorem cartWrite_ram {s : State} (hv : s.params.variant = .bankSwitching) {a : Addr} (ha : a &&& 0xE000 = 0xA000) (v : Byte) :
    cartWrite a v s = bsWriteRam a v s := by
  rw [range_E000_A000] at ha
  simp only [cartWrite, hv, BitVec.le_def, BitVec.toNat_ofNat]
  rw [if_neg (by omega), if_neg (by omega), if_neg (by omega), if_neg (by omega), if_pos (by rw [inRamWindow_iff]; omega)]

/-- `0xA000` to `0xBFFF` is the RAM window, for reads. -/
theorem cartRead_ram {s : State} (hv : s.params.variant = .bankSwitching) {a : Addr} (ha : a &&& 0xE000 = 0xA000) :
    cartRead s a = bsReadRam s a := by
  rw [range_E000_A000] at ha
  simp only [cartRead, hv, BitVec.le_def, BitVec.toNat_ofNat]
  rw [if_neg (by omega), if_neg (by omega), if_pos (by rw [inRamWindow_iff]; omega)]

/-- A RAM-enable write sets the flag, or does nothing without RAM. -/
theorem bsWriteRamEnable_cases (v : Byte) (s : State) :
    (s.params.hasRam = false ∧ bsWriteRamEnable v s = s) ∨
    (s.params.hasRam = true ∧ bsWriteRamEnable v s = { s with ramEn := enablesRam v }) := by
  cases h : s.params.hasRam <;> simp [bsWriteRamEnable, h]

/-- A RAM write stores one byte of an open RAM, or does nothing. -/
theorem bsWriteRam_cases (a : Addr) (v : Byte) (s : State) :
    (s.ramOpen = false ∧ bsWriteRam a v s = s) ∨
    (s.ramOpen = true ∧
      bsWriteRam a v s = { s with ram := s.ram.write (ramKey s.ramSel (ramOffset a)) v }) := by
  cases h : s.ramOpen <;> simp [bsWriteRam, h]

/-- A ROM select leaves a switchable bank selected when one was (41_cartridge_bankswitching.md R146). -/
theorem selectedRomBank_bounds (policy : RomOor) (n : Nat) (v : Byte) (old : BitVec 7)
    (h : 1 ≤ old.toNat) (h' : old.toNat ≤ n - 1) :
    1 ≤ (selectedRomBank policy n v old).toNat ∧ (selectedRomBank policy n v old).toNat ≤ n - 1 := by
  unfold selectedRomBank
  simp only
  split
  · assumption
  · rename_i hb
    cases policy with
    | reject => exact ⟨h, h'⟩
    | clamp =>
      simp only [outOfRangeBank]
      split
      · exact ⟨by decide, by simp; omega⟩
      · rename_i h0
        have hlt := (romBankField v).isLt
        have h1 : (romBankField v).toNat ≠ 0 := fun h => h0 (BitVec.eq_of_toNat_eq (by simpa using h))
        simp only [BitVec.toNat_ofNat]
        rw [Nat.mod_eq_of_lt (by omega)]
        omega

/-- What no cartridge write touches (40_cartridge_nobanking.md R123, 41_cartridge_bankswitching.md R145 to R153). -/
theorem cartWrite_frame (a : Addr) (v : Byte) (s : State) :
    (cartWrite a v s).params = s.params ∧ (cartWrite a v s).colSel = s.colSel ∧ (cartWrite a v s).row0 = s.row0 ∧
    (cartWrite a v s).row1 = s.row1 ∧ (cartWrite a v s).ifReg = s.ifReg ∧ (cartWrite a v s).ieReg = s.ieReg ∧
    (cartWrite a v s).store = s.store ∧ (cartWrite a v s).fault = s.fault ∧ (cartWrite a v s).inbox = s.inbox ∧
    (cartWrite a v s).draws = s.draws := by
  rcases cartWrite_cases a v s with h | ⟨-, ⟨-, h⟩ | ⟨-, -, h⟩ | ⟨-, -, h⟩ | ⟨-, -, h⟩⟩ <;> rw [h]
  · simp
  · rcases bsWriteRamEnable_cases v s with ⟨-, h⟩ | ⟨-, h⟩ <;> rw [h] <;> simp
  · simp
  · simp
  · rcases bsWriteRam_cases a v s with ⟨-, h⟩ | ⟨-, h⟩ <;> rw [h] <;> simp

/-! ### KeyMatrix -/

/-- Clearing a key's bit changes the two row registers alone. -/
theorem clearKeyBit_eq (pos : KeyPos) (s : State) :
    clearKeyBit pos s = { s with row0 := (clearKeyBit pos s).row0, row1 := (clearKeyBit pos s).row1 } := by
  unfold clearKeyBit
  split <;> rfl

theorem getLsbD_clearRowBit (r : BitVec 4) (i j : Fin 4) :
    (clearRowBit r i).getLsbD j = (r.getLsbD j && !decide (i = j)) := by
  fin_cases i <;> fin_cases j <;> simp [clearRowBit]

/-- After clearing a key's bit exactly that bit of that row is 0, the others as before. -/
theorem row_clearKeyBit (pos : KeyPos) (s : State) (r : Fin 2) (j : Fin 4) :
    ((clearKeyBit pos s).row r).getLsbD j = ((s.row r).getLsbD j && !decide (pos = ⟨r, j⟩)) := by
  obtain ⟨pr, pb⟩ := pos
  have hr : r = 0 ∨ r = 1 := by omega
  have hp : pr = 0 ∨ pr = 1 := by omega
  rcases hr with rfl | rfl <;> rcases hp with rfl | rfl
  · simpa [clearKeyBit] using getLsbD_clearRowBit s.row0 pb j
  · simp [clearKeyBit]
  · simp [clearKeyBit]
  · simpa [clearKeyBit] using getLsbD_clearRowBit s.row1 pb j

/-- A press sets the joypad request and changes the row registers; nothing else. -/
theorem pressKey_eq (k : Key) (s : State) :
    pressKey k s = { s with ifReg := s.ifReg ||| 0x10, row0 := (pressKey k s).row0, row1 := (pressKey k s).row1 } := by
  unfold pressKey
  rw [clearKeyBit_eq]
  rfl

theorem row_pressKey (k : Key) (s : State) (r : Fin 2) (j : Fin 4) :
    ((pressKey k s).row r).getLsbD j = ((s.row r).getLsbD j && !decide (s.params.keymap.pos k = ⟨r, j⟩)) :=
  row_clearKeyBit _ _ r j

/-! ### The save store -/

/-- `SAVE` answers without changing anything, or copies RAM into the store and answers `ok`. -/
theorem saveRam_cases (s : State) :
    (∃ r, saveRam s = s.reply r) ∨
    (s.params.variant = .bankSwitching ∧ s.params.hasRam = true ∧ s.params.hasBattery = true ∧
      saveRam s = State.reply .ok { s with store := some s.ram }) := by
  unfold saveRam
  cases hv : s.params.variant with
  | noBanking => exact .inl ⟨_, rfl⟩
  | bankSwitching =>
    simp only
    split
    · exact .inl ⟨_, rfl⟩
    · split
      · exact .inl ⟨_, rfl⟩
      · rename_i h _
        simp only [Bool.not_eq_true', Bool.not_eq_false, Bool.and_eq_true] at h
        exact .inr ⟨trivial, h.1, h.2, rfl⟩

/-- `LOAD` answers without changing anything, or copies the record into RAM and answers `ok`. -/
theorem loadRam_cases (s : State) :
    (∃ r, loadRam s = s.reply r) ∨
    (s.params.variant = .bankSwitching ∧ s.params.hasRam = true ∧ s.params.hasBattery = true ∧
      ∃ m, s.store = some m ∧ loadRam s = State.reply .ok { s with ram := m }) := by
  unfold loadRam
  cases hv : s.params.variant with
  | noBanking => exact .inl ⟨_, rfl⟩
  | bankSwitching =>
    simp only
    split
    · exact .inl ⟨_, rfl⟩
    · rename_i h
      simp only [Bool.not_eq_true', Bool.not_eq_false, Bool.and_eq_true] at h
      cases hm : s.store with
      | none => exact .inl ⟨_, rfl⟩
      | some m =>
        simp only
        split
        · exact .inl ⟨_, rfl⟩
        · exact .inr ⟨trivial, h.1, h.2, m, rfl, rfl⟩

/-! ### The router -/

theorem unclaimedRead_cases (s : State) (a : Addr) :
    (a ∉ s.params.extMap ∧ unclaimedRead s a = .byte 0x00) ∨
    (a ∈ s.params.extMap ∧ unclaimedRead s a = .external a s.draws.extRead) := by
  by_cases h : a ∈ s.params.extMap <;> simp [unclaimedRead, h]

theorem unclaimedWrite_cases (a : Addr) (v : Byte) (s : State) :
    (a ∉ s.params.extMap ∧ unclaimedWrite a v s = s.reply .nothing) ∨
    (a ∈ s.params.extMap ∧ unclaimedWrite a v s = s.replyExternal .nothing (.write a v)) := by
  by_cases h : a ∈ s.params.extMap <;> simp [unclaimedWrite, h]

/-! ### exec -/

/-- Everything an operation can do when it goes on: the state after it, with the operations that can do it. -/
inductive Effect (s : State) : Instr → State → Prop
  /-- Nothing but an answer: reads, no-ops, refused words. -/
  | answers (i : Instr) (r : Response) : Effect s i (s.reply r)
  /-- An answer and an access to the external port. -/
  | external (i : Instr) (r : Response) (x : ExtAccess) : Effect s i (s.replyExternal r x)
  /-- The fatal error of `CARTRD.NB.FATAL`. -/
  | fatalCart (a : Addr) :
    Effect s (.cartrdNbFatal a) { s with fault := some ⟨.noBankingReadOutOfRange, a⟩, out := ⟨.nothing, none⟩ }
  /-- The fatal error of a bus read on NoBanking. -/
  | fatalBus (i : Instr) (a : Addr) (hi : i = .busrdCartRom a ∨ i = .busrdCartRam a)
    (hv : s.params.variant = .noBanking) (ha : 0x8000 ≤ a.toNat) :
    Effect s i { s with fault := some ⟨.noBankingReadOutOfRange, a⟩, out := ⟨.nothing, none⟩ }
  /-- A write of the column select. -/
  | column (i : Instr) (v : Byte) (hi : i = .buswrKm v ∨ ∃ a, i = .kmwr a v) : Effect s i ((kmWrite v s).reply .nothing)
  /-- A whole-value write of `IF`. -/
  | writesIf (v : Byte) : Effect s (.buswrIf v) ((writeIf v s).reply .nothing)
  /-- A write of `IE`. -/
  | writesIe (v : Byte) : Effect s (.buswrIe v) ((writeIe v s).reply .nothing)
  /-- A cartridge write through the router. -/
  | busCart (i : Instr) (a : Addr) (v : Byte) (hi : i = .buswrCartRom a v ∨ i = .buswrCartRam a v) :
    Effect s i ((cartWrite a v s).reply .nothing)
  /-- A recognized key. -/
  | press (i : Instr) (k : Key) (hi : i.pressedKey = some k) : Effect s i ((pressKey k s).reply .nothing)
  /-- An unrecognized key. -/
  | unknownKey (c : BitVec 4) : Effect s (.keyUnrecognized c) ((requestInterrupt maskJoypad s).reply .nothing)
  /-- `TICK` or `RESET`. -/
  | releases (i : Instr) (hi : releasesKeys i = true) : Effect s i ((keyMatrixReset s).reply .nothing)
  /-- `SAVE`. -/
  | saves : Effect s .save (saveRam s)
  /-- `LOAD`. -/
  | loads : Effect s .load (loadRam s)
  /-- `IRQREQ`. -/
  | requests (m : Byte) : Effect s (.irqreq m) ((requestInterrupt m s).reply .nothing)
  /-- `IFCLR`. -/
  | clears (m : Byte) : Effect s (.ifclr m) ((clearInterrupts m s).reply .nothing)
  /-- A RAM-enable write at the cartridge port. -/
  | ramEnable (a : Addr) (v : Byte) : Effect s (.cartwrBsRamen a v) ((bsWriteRamEnable v s).reply .nothing)
  /-- A ROM-select write at the cartridge port. -/
  | romSelect (a : Addr) (v : Byte) : Effect s (.cartwrBsRomsel a v) ((bsWriteRomSelect v s).reply .nothing)
  /-- A RAM-select write at the cartridge port. -/
  | ramSelect (a : Addr) (v : Byte) : Effect s (.cartwrBsRamsel a v) ((bsWriteRamSelect v s).reply .nothing)
  /-- A RAM write at the cartridge port. -/
  | ramWrite (a : Addr) (v : Byte) : Effect s (.cartwrBsRam a v) ((bsWriteRam a v s).reply .nothing)

/-- A read that cannot be fatal only answers. -/
theorem effect_of_finishRead {s t : State} {r : ReadResult} (i : Instr) (h : finishRead s r = .next t)
    (hr : ∀ reason a, r ≠ .fatal reason a) : Effect s i t := by
  rcases finishRead_next h with ⟨b, -, rfl⟩ | ⟨a, b, -, rfl⟩ | ⟨reason, a, hf, -⟩
  · exact .answers i _
  · exact .external i _ _
  · exact absurd hf (hr reason a)

theorem readImage_ne_fatal (s : State) (o : Nat) (reason : FatalReason) (a : Addr) :
    readImage s o ≠ .fatal reason a := by
  rcases readImage_cases s o with ⟨-, h⟩ | ⟨-, h⟩ <;> simp [h]

theorem unclaimedRead_ne_fatal (s : State) (a : Addr) (reason : FatalReason) (a' : Addr) :
    unclaimedRead s a ≠ .fatal reason a' := by
  rcases unclaimedRead_cases s a with ⟨-, h⟩ | ⟨-, h⟩ <;> simp [h]

theorem effect_of_busCartRead {s t : State} {i : Instr} {a : Addr} (h : finishRead s (cartRead s a) = .next t)
    (hi : i = .busrdCartRom a ∨ i = .busrdCartRam a) : Effect s i t := by
  rcases cartRead_cases s a with ⟨b, hr⟩ | ⟨o, hr⟩ | ⟨hv, ha, hr⟩ <;> rw [hr] at h
  · cases h; exact .answers i _
  · cases h
  · cases h; exact .fatalBus i a hi hv ha

theorem effect_of_unclaimedWrite {s : State} (i : Instr) (a : Addr) (v : Byte) :
    Effect s i (unclaimedWrite a v s) := by
  rcases unclaimedWrite_cases a v s with ⟨-, h⟩ | ⟨-, h⟩ <;> rw [h]
  · exact .answers i _
  · exact .external i _ _

/-- The inversion of `exec`: an operation that goes on has one of the effects above, on a running block. -/
theorem exec_next {i : Instr} {s t : State} (h : exec i s = .next t) : s.fault = none ∧ Effect s i t := by
  cases i <;> (
    simp only [exec, execBusrdKm, execBusrdIf, execBusrdIe, execBusrdCartRom, execBusrdCartRam, execBusrdUnclaimedLo,
      execBusrdUnclaimedHi, execBuswrKm, execBuswrIf, execBuswrIe, execBuswrCartRom, execBuswrCartRam,
      execBuswrUnclaimedLo, execBuswrUnclaimedHi, execKeyUp, execKeyDown, execKeyLeft, execKeyRight, execKeyA, execKeyB,
      execKeyStart, execKeySelect, execKeyUnrecognized, execTick, execReset, execSave, execLoad, execIrqreq, execIfclr,
      execIfrd, execCartrdNbRom, execCartrdNbFatal, execCartrdBsBank0, execCartrdBsWindow, execCartrdBsRam,
      execCartrdBsOpenLo, execCartrdBsOpenHi, execCartwrNb, execCartwrBsRamen, execCartwrBsRomsel, execCartwrBsRamsel,
      execCartwrBsNone6, execCartwrBsNoneLo, execCartwrBsRam, execCartwrBsNoneHi, execKmrd, execKmwr, execInvalid,
      whileRunning_next] at h
    refine ⟨h.1, ?_⟩
    replace h := h.2)
  case busrdKm | busrdIf | busrdIe | ifrd | kmrd => cases h; exact .answers _ _
  case busrdCartRom a => exact effect_of_busCartRead h (.inl rfl)
  case busrdCartRam a => exact effect_of_busCartRead h (.inr rfl)
  case busrdUnclaimedLo a | busrdUnclaimedHi a => exact effect_of_finishRead _ h (unclaimedRead_ne_fatal s a)
  case buswrKm v => cases h; exact .column _ v (.inl rfl)
  case buswrIf v => cases h; exact .writesIf v
  case buswrIe v => cases h; exact .writesIe v
  case buswrCartRom a v => cases h; exact .busCart _ a v (.inl rfl)
  case buswrCartRam a v => cases h; exact .busCart _ a v (.inr rfl)
  case buswrUnclaimedLo a v | buswrUnclaimedHi a v => cases h; exact effect_of_unclaimedWrite _ a v
  case keyUp | keyDown | keyLeft | keyRight | keyA | keyB | keyStart | keySelect => cases h; exact .press _ _ rfl
  case keyUnrecognized c => cases h; exact .unknownKey c
  case tick | reset => cases h; exact .releases _ rfl
  case save => cases h; exact .saves
  case load => cases h; exact .loads
  case irqreq m => cases h; exact .requests m
  case ifclr m => cases h; exact .clears m
  case cartrdNbRom a => exact effect_of_finishRead _ h (readImage_ne_fatal s _)
  case cartrdNbFatal a => cases h; exact .fatalCart a
  case cartrdBsBank0 a | cartrdBsWindow a => exact effect_of_finishRead _ h (readImage_ne_fatal s _)
  case cartrdBsRam a =>
    refine effect_of_finishRead _ h ?_
    intro reason a'
    unfold bsReadRam
    split <;> simp
  case cartrdBsOpenLo | cartrdBsOpenHi => cases h; exact .answers _ _
  case cartwrNb | cartwrBsNone6 | cartwrBsNoneLo | cartwrBsNoneHi => cases h; exact .answers _ _
  case cartwrBsRamen a v => cases h; exact .ramEnable a v
  case cartwrBsRomsel a v => cases h; exact .romSelect a v
  case cartwrBsRamsel a v => cases h; exact .ramSelect a v
  case cartwrBsRam a v => cases h; exact .ramWrite a v
  case kmwr a v => cases h; exact .column _ v (.inr ⟨a, rfl⟩)
  case invalid => cases h; exact .answers _ _

/-! ### step -/

/-- A step that goes on does nothing on an empty inbox, and otherwise performs the oldest word. -/
theorem step_next {s t : State} (h : step s = .next t) :
    s.fault = none ∧ ((s.inbox = [] ∧ t = s) ∨
      ∃ r rest, s.inbox = r :: rest ∧ Effect (s.accept r rest) (decode s.params r.word) t) := by
  simp only [step, whileRunning_next] at h
  refine ⟨h.1, ?_⟩
  have h2 := h.2
  cases hq : s.inbox with
  | nil => rw [hq] at h2; cases h2; exact .inl ⟨rfl, rfl⟩
  | cons r rest => rw [hq] at h2; exact .inr ⟨r, rest, rfl, (exec_next h2).2⟩

/-! ### Construction -/

/-- A construction takes its parameters when every check holds, and otherwise is refused for a check that does not. -/
theorem construct_cases (b : BuildArgs) :
    ((∀ c ∈ b.checks, c.1 = true) ∧ construct b = .ok b.params) ∨
    (∃ c ∈ b.checks, c.1 = false ∧ construct b = .error c.2) := by
  unfold construct
  cases h : b.checks.find? fun c => !c.1 with
  | none =>
    rw [List.find?_eq_none] at h
    exact .inl ⟨fun c hc => by simpa using h c hc, rfl⟩
  | some c => exact .inr ⟨c, List.mem_of_find?_eq_some h, by simpa using List.find?_some h, rfl⟩

/-- The image a construction keeps is as long as the cartridge needs. -/
theorem imageSize_params (b : BuildArgs) : b.params.imageSize = b.neededLength := by
  unfold Params.imageSize BuildArgs.neededLength BuildArgs.params
  cases b.variant <;> rfl

/-! ### Sequences of operations -/

/-- A sequence that goes on goes on at its first operation, and from there. -/
theorem perform_cons_next {r : Request} {rs : List Request} {s u : State} (h : perform (r :: rs) s = .next u) :
    ∃ t, exec (decode s.params r.word) { s with inbox := [], draws := r.draws } = .next t ∧ perform rs t = .next u := by
  simp only [perform] at h
  cases hs : step { s with inbox := [r] } with
  | next t =>
    rw [hs] at h
    refine ⟨t, ?_, h⟩
    simp only [step, whileRunning_next] at hs
    exact hs.2
  | fault f => rw [hs] at h; cases h
  | refused f => rw [hs] at h; cases h

/-- A press after a history, or a press of the history no release follows. -/
theorem pressedSinceRelease_cons (i : Instr) (h : List Instr) (k : Key) :
    pressedSinceRelease (i :: h) k ↔
      pressedSinceRelease h k ∨ (i.pressedKey = some k ∧ ∀ j ∈ h, releasesKeys j = false) := by
  constructor
  · rintro ⟨before, press, after, he, hp, hr⟩
    cases before with
    | nil => cases he; exact .inr ⟨hp, hr⟩
    | cons x before => cases he; exact .inl ⟨before, press, after, rfl, hp, hr⟩
  · rintro (⟨before, press, after, rfl, hp, hr⟩ | ⟨hp, hr⟩)
    · exact ⟨i :: before, press, after, rfl, hp, hr⟩
    · exact ⟨[], i, h, rfl, hp, hr⟩

end Sys2Proof.Machine
end

