-- ==== Sys2Proof/Laws/PerInstr.lean ====
section
/-! SUPPORT. Statements about every operation as syntax: the word an operation is encoded as carries the operation's own
kind (30_encoding.md R92), whatever the parameters. -/

namespace Sys2Proof.Laws.EncodedKind

/-- The kind field of the encoded word is the operation's kind. -/
def Statement (i : Instr) : Prop := ∀ p : Params, kindOf (encode p i) = i.kind

theorem busrdKm : Statement (.busrdKm) := fun _ => kindOf_word _ _ _
theorem busrdIf : Statement (.busrdIf) := fun _ => kindOf_word _ _ _
theorem busrdIe : Statement (.busrdIe) := fun _ => kindOf_word _ _ _
theorem busrdCartRom (addr : Addr) : Statement (.busrdCartRom addr) := fun _ => kindOf_word _ _ _
theorem busrdCartRam (addr : Addr) : Statement (.busrdCartRam addr) := fun _ => kindOf_word _ _ _
theorem busrdUnclaimedLo (addr : Addr) : Statement (.busrdUnclaimedLo addr) := fun _ => kindOf_word _ _ _
theorem busrdUnclaimedHi (addr : Addr) : Statement (.busrdUnclaimedHi addr) := fun _ => kindOf_word _ _ _
theorem buswrKm (data : Byte) : Statement (.buswrKm data) := fun _ => kindOf_word _ _ _
theorem buswrIf (data : Byte) : Statement (.buswrIf data) := fun _ => kindOf_word _ _ _
theorem buswrIe (data : Byte) : Statement (.buswrIe data) := fun _ => kindOf_word _ _ _
theorem buswrCartRom (addr : Addr) (data : Byte) : Statement (.buswrCartRom addr data) := fun _ => kindOf_word _ _ _
theorem buswrCartRam (addr : Addr) (data : Byte) : Statement (.buswrCartRam addr data) := fun _ => kindOf_word _ _ _
theorem buswrUnclaimedLo (addr : Addr) (data : Byte) : Statement (.buswrUnclaimedLo addr data) := fun _ => kindOf_word _ _ _
theorem buswrUnclaimedHi (addr : Addr) (data : Byte) : Statement (.buswrUnclaimedHi addr data) := fun _ => kindOf_word _ _ _
theorem keyUp : Statement (.keyUp) := fun _ => kindOf_word _ _ _
theorem keyDown : Statement (.keyDown) := fun _ => kindOf_word _ _ _
theorem keyLeft : Statement (.keyLeft) := fun _ => kindOf_word _ _ _
theorem keyRight : Statement (.keyRight) := fun _ => kindOf_word _ _ _
theorem keyA : Statement (.keyA) := fun _ => kindOf_word _ _ _
theorem keyB : Statement (.keyB) := fun _ => kindOf_word _ _ _
theorem keyStart : Statement (.keyStart) := fun _ => kindOf_word _ _ _
theorem keySelect : Statement (.keySelect) := fun _ => kindOf_word _ _ _
theorem keyUnrecognized (code : BitVec 4) : Statement (.keyUnrecognized code) := fun _ => kindOf_word _ _ _
theorem tick : Statement (.tick) := fun _ => kindOf_word _ _ _
theorem reset : Statement (.reset) := fun _ => kindOf_word _ _ _
theorem save : Statement (.save) := fun _ => kindOf_word _ _ _
theorem load : Statement (.load) := fun _ => kindOf_word _ _ _
theorem irqreq (mask : Byte) : Statement (.irqreq mask) := fun _ => kindOf_word _ _ _
theorem ifclr (mask : Byte) : Statement (.ifclr mask) := fun _ => kindOf_word _ _ _
theorem ifrd : Statement (.ifrd) := fun _ => kindOf_word _ _ _
theorem cartrdNbRom (addr : Addr) : Statement (.cartrdNbRom addr) := fun _ => kindOf_word _ _ _
theorem cartrdNbFatal (addr : Addr) : Statement (.cartrdNbFatal addr) := fun _ => kindOf_word _ _ _
theorem cartrdBsBank0 (addr : Addr) : Statement (.cartrdBsBank0 addr) := fun _ => kindOf_word _ _ _
theorem cartrdBsWindow (addr : Addr) : Statement (.cartrdBsWindow addr) := fun _ => kindOf_word _ _ _
theorem cartrdBsRam (addr : Addr) : Statement (.cartrdBsRam addr) := fun _ => kindOf_word _ _ _
theorem cartrdBsOpenLo (addr : Addr) : Statement (.cartrdBsOpenLo addr) := fun _ => kindOf_word _ _ _
theorem cartrdBsOpenHi (addr : Addr) : Statement (.cartrdBsOpenHi addr) := fun _ => kindOf_word _ _ _
theorem cartwrNb (addr : Addr) (data : Byte) : Statement (.cartwrNb addr data) := fun _ => kindOf_word _ _ _
theorem cartwrBsRamen (addr : Addr) (data : Byte) : Statement (.cartwrBsRamen addr data) := fun _ => kindOf_word _ _ _
theorem cartwrBsRomsel (addr : Addr) (data : Byte) : Statement (.cartwrBsRomsel addr data) := fun _ => kindOf_word _ _ _
theorem cartwrBsRamsel (addr : Addr) (data : Byte) : Statement (.cartwrBsRamsel addr data) := fun _ => kindOf_word _ _ _
theorem cartwrBsNone6 (addr : Addr) (data : Byte) : Statement (.cartwrBsNone6 addr data) := fun _ => kindOf_word _ _ _
theorem cartwrBsNoneLo (addr : Addr) (data : Byte) : Statement (.cartwrBsNoneLo addr data) := fun _ => kindOf_word _ _ _
theorem cartwrBsRam (addr : Addr) (data : Byte) : Statement (.cartwrBsRam addr data) := fun _ => kindOf_word _ _ _
theorem cartwrBsNoneHi (addr : Addr) (data : Byte) : Statement (.cartwrBsNoneHi addr data) := fun _ => kindOf_word _ _ _
theorem kmrd (addr : Addr) : Statement (.kmrd addr) := fun _ => kindOf_word _ _ _
theorem kmwr (addr : Addr) (data : Byte) : Statement (.kmwr addr data) := fun _ => kindOf_word _ _ _
theorem invalid (kindBit : BitVec 1) : Statement (.invalid kindBit) := fun _ => kindOf_word _ _ _

end Sys2Proof.Laws.EncodedKind
end

