-- ==== Sys2Proof/Machine/Text.lean ====
section
/-! DEFINITION. The textual syntax of operations and the pseudo-operations, as an assembler of one line into a transaction
word (30_encoding.md R111, R112; 00_scope.md R10). Nothing in the step reads it. -/

namespace Sys2Proof.Machine

/-! ### Operations and their words (30_encoding.md R111) -/

/-- An operation as the syntax writes it. -/
inductive Op where
  | rd (a : Addr)
  | wr (a : Addr) (v : Byte)
  | key (code : BitVec 4)
  | tick
  | reset
  | save
  | load
  | irq (m : Byte)
  | ifclr (m : Byte)
  | ifrd
  | crd (a : Addr)
  | cwr (a : Addr) (v : Byte)
  | krd (a : Addr)
  | kwr (a : Addr) (v : Byte)
  deriving DecidableEq, Repr

/-- The word column of 30_encoding.md R111. -/
def Op.word : Op → TWord
  | .rd a => Sys2Proof.word 0x0 a 0x00
  | .wr a v => Sys2Proof.word 0x1 a v
  | .key c => Sys2Proof.word 0x2 0x0000 (c.setWidth 8)
  | .tick => 0x3000000
  | .reset => 0x4000000
  | .save => 0x5000000
  | .load => 0x6000000
  | .irq m => Sys2Proof.word 0x7 0x0000 m
  | .ifclr m => Sys2Proof.word 0x8 0x0000 m
  | .ifrd => 0x9000000
  | .crd a => Sys2Proof.word 0xA a 0x00
  | .cwr a v => Sys2Proof.word 0xB a v
  | .krd a => Sys2Proof.word 0xC a 0x00
  | .kwr a v => Sys2Proof.word 0xD a v

/-! ### Pseudo-operations (30_encoding.md R112) -/

/-- The eight abbreviations. -/
inductive Pseudo where
  | enRam | disRam | romBank (b : Byte) | ramBank (b : Byte) | selRow0 | selRow1 | rdKeys | ack (m : Byte)
  deriving DecidableEq, Repr

/-- The expansion column of 30_encoding.md R112. -/
def Pseudo.expand (p : Params) : Pseudo → Op
  | .enRam => .wr 0x0000 0x0A
  | .disRam => .wr 0x0000 0x00
  | .romBank b => .wr 0x2000 b
  | .ramBank b => .wr 0x4000 b
  | .selRow0 => .wr p.keymatrixAddr p.selRow0
  | .selRow1 => .wr p.keymatrixAddr p.selRow1
  | .rdKeys => .rd p.keymatrixAddr
  | .ack m => .ifclr m

/-! ### Numbers (00_scope.md R10) -/

/-- The value of one digit, at most hexadecimal. -/
def digitValue (c : Char) : Option Nat :=
  if '0' ≤ c ∧ c ≤ '9' then some (c.toNat - '0'.toNat)
  else if 'a' ≤ c ∧ c ≤ 'f' then some (c.toNat - 'a'.toNat + 10)
  else if 'A' ≤ c ∧ c ≤ 'F' then some (c.toNat - 'A'.toNat + 10)
  else none

/-- Digits in `base`, after the value `acc` already read. -/
def digitsFrom (base : Nat) : List Char → Nat → Option Nat
  | [], acc => some acc
  | c :: cs, acc =>
    match digitValue c with
    | some d => if d < base then digitsFrom base cs (acc * base + d) else none
    | none => none

/-- `0x` hexadecimal, `0b` binary, else decimal; at least one digit. -/
def number : List Char → Option Nat
  | '0' :: 'x' :: c :: cs => digitsFrom 16 (c :: cs) 0
  | '0' :: 'b' :: c :: cs => digitsFrom 2 (c :: cs) 0
  | c :: cs => digitsFrom 10 (c :: cs) 0
  | [] => none

/-- A number that fits in `w` bits. -/
def sizedNumber (w : Nat) (cs : List Char) : Option (BitVec w) :=
  match number cs with
  | some n => if n < 2 ^ w then some (BitVec.ofNat w n) else none
  | none => none

/-! ### Lines -/

/-- Put `c` in front of the first token, or close it at a blank or a comma. -/
def addChar (c : Char) : List (List Char) → List (List Char)
  | ts =>
    if c = ' ' ∨ c = ',' then [] :: ts
    else match ts with
      | [] => [[c]]
      | t :: ts => (c :: t) :: ts

/-- The tokens of a line, its comment left out. -/
def tokens (line : List Char) : List (List Char) :=
  ((line.takeWhile (· != ';')).foldr addChar []).filter (· != [])

/-- A line of operands: a 16-bit address and a byte. -/
def addrAndByte (f : Addr → Byte → Op) (x y : List Char) : Option Op :=
  match sizedNumber 16 x, sizedNumber 8 y with
  | some a, some v => some (f a v)
  | _, _ => none

/-- The operation of a mnemonic without operands. -/
def operation0 (p : Params) (m : List Char) : Option Op :=
  if m = ['T', 'I', 'C', 'K'] then some .tick
  else if m = ['R', 'E', 'S', 'E', 'T'] then some .reset
  else if m = ['S', 'A', 'V', 'E'] then some .save
  else if m = ['L', 'O', 'A', 'D'] then some .load
  else if m = ['I', 'F', 'R', 'D'] then some .ifrd
  else if m = ['E', 'N', 'R', 'A', 'M'] then some (Pseudo.enRam.expand p)
  else if m = ['D', 'I', 'S', 'R', 'A', 'M'] then some (Pseudo.disRam.expand p)
  else if m = ['S', 'E', 'L', 'R', 'O', 'W', '0'] then some (Pseudo.selRow0.expand p)
  else if m = ['S', 'E', 'L', 'R', 'O', 'W', '1'] then some (Pseudo.selRow1.expand p)
  else if m = ['R', 'D', 'K', 'E', 'Y', 'S'] then some (Pseudo.rdKeys.expand p)
  else none

/-- The operation of a mnemonic with one operand. -/
def operation1 (p : Params) (m x : List Char) : Option Op :=
  if m = ['R', 'D'] then (sizedNumber 16 x).map .rd
  else if m = ['K', 'E', 'Y'] then some (.key (keyCodeOfToken x))
  else if m = ['I', 'R', 'Q'] then (sizedNumber 8 x).map .irq
  else if m = ['I', 'F', 'C', 'L', 'R'] then (sizedNumber 8 x).map .ifclr
  else if m = ['C', 'R', 'D'] then (sizedNumber 16 x).map .crd
  else if m = ['K', 'R', 'D'] then (sizedNumber 16 x).map .krd
  else if m = ['R', 'O', 'M', 'B', 'A', 'N', 'K'] then (sizedNumber 8 x).map fun b => (Pseudo.romBank b).expand p
  else if m = ['R', 'A', 'M', 'B', 'A', 'N', 'K'] then (sizedNumber 8 x).map fun b => (Pseudo.ramBank b).expand p
  else if m = ['A', 'C', 'K'] then (sizedNumber 8 x).map fun k => (Pseudo.ack k).expand p
  else none

/-- The operation of a mnemonic with two operands. -/
def operation2 (m x y : List Char) : Option Op :=
  if m = ['W', 'R'] then addrAndByte .wr x y
  else if m = ['C', 'W', 'R'] then addrAndByte .cwr x y
  else if m = ['K', 'W', 'R'] then addrAndByte .kwr x y
  else none

/-- What a line of text is. -/
inductive Line where
  | blank
  | op (o : Op)
  | notAnOperation
  deriving DecidableEq, Repr

/-- An operation, or none of the syntax. -/
def Line.ofOption : Option Op → Line
  | some o => .op o
  | none => .notAnOperation

/-- Read one line of the syntax of 30_encoding.md R111 and R112. -/
def parseLine (p : Params) (line : List Char) : Line :=
  match tokens line with
  | [] => .blank
  | [m] => Line.ofOption (operation0 p m)
  | [m, x] => Line.ofOption (operation1 p m x)
  | [m, x, y] => Line.ofOption (operation2 m x y)
  | _ => .notAnOperation

end Sys2Proof.Machine
end

