-- ==== Sys2Proof/Tests/Slice0.lean ====
section
/-! SUPPORT. The model's own tests. Expected results come from the spec: a test cites the vector of 95_test_vectors.md or
the rule it is taken from. At the end, one witness for the hypotheses of each statement that has any. -/

namespace Sys2Proof.Tests

open Sys2Proof.Machine

/-! ### Small states -/

/-- BankSwitching, with the bytes of `IMGB(8)` the tests look at (95_test_vectors.md, section 0), other bytes `0x00`. -/
def bsParams : Params := { Config.defaultParams with
  image := [(0x3FFF, 0x1F), (0x4000, 0x20), (0x7FFF, 0x3F), (0x14000, 0xA0), (0x14123, 0xA3), (0x1FFFF, 0xFF)] }

/-- NoBanking, with the bytes of `IMGT` the tests look at. -/
def nbParams : Params := { Config.defaultParams with
  variant := .noBanking, hasRam := false, hasBattery := false,
  image := [(0x0134, 0x54), (0x0135, 0x45), (0x4000, 0x40), (0x7FFF, 0x80)] }

/-- A BankSwitching block at power-on. -/
def bs : State := State.powerOn bsParams none 0x00

/-- A NoBanking block at power-on. -/
def nb : State := State.powerOn nbParams none 0x00

/-- The BankSwitching block without RAM. -/
def noRam : State := State.powerOn { bsParams with hasRam := false } none 0x00

/-- The BankSwitching block with an outside device at `0x9FFF` and `0xC000`, answering `0x77`. -/
def ext : State := { State.powerOn { bsParams with extMap := [0x9FFF, 0xC000] } none 0x00 with draws := ⟨false, false, 0x77⟩ }

/-- The state after an operation; the same state where it does not go on. -/
def after (i : Instr) (s : State) : State :=
  match exec i s with
  | .next t => t
  | .fault _ => s
  | .refused _ => s

/-- What an operation answers. -/
def answer (i : Instr) (s : State) : Response := (after i s).out.response

/-! ### WellFormed: one ill-formed operation for each check -/

theorem test_wellFormed_refuses_router : [Instr.busrdCartRom 0x8000, .busrdCartRam 0xC000, .busrdUnclaimedLo 0x7FFF,
    .busrdUnclaimedHi 0xBFFF, .buswrCartRom 0xA000 1, .buswrCartRam 0x9FFF 1, .buswrUnclaimedLo 0xA000 1,
    .buswrUnclaimedHi 0x8000 1].all (fun i => !i.wellFormed bsParams) = true := by decide

theorem test_wellFormed_refuses_exact : [Instr.busrdUnclaimedHi 0xFF00, .busrdUnclaimedHi 0xFF0F, .busrdUnclaimedHi 0xFFFF,
    .buswrUnclaimedHi 0xFF00 1, .buswrUnclaimedHi 0xFF0F 1, .buswrUnclaimedHi 0xFFFF 1].all
    (fun i => !i.wellFormed bsParams) = true := by decide

theorem test_wellFormed_refuses_exact_low : [Instr.busrdCartRom 0x1234, .busrdCartRam 0xA123, .busrdUnclaimedLo 0x8123].all
    (fun i => !i.wellFormed { bsParams with keymatrixAddr := 0x1234 } || !i.wellFormed { bsParams with keymatrixAddr := 0xA123 }
      || !i.wellFormed { bsParams with keymatrixAddr := 0x8123 }) = true := by decide

theorem test_wellFormed_refuses_key : (Instr.keyUnrecognized 0x7).wellFormed bsParams = false := by decide

theorem test_wellFormed_refuses_cart_range : [Instr.cartrdBsBank0 0x4000, .cartrdBsWindow 0x8000, .cartrdBsRam 0xC000,
    .cartrdBsOpenLo 0xA000, .cartrdBsOpenHi 0xBFFF, .cartwrBsRamen 0x2000 1, .cartwrBsRomsel 0x4000 1, .cartwrBsRamsel 0x6000 1,
    .cartwrBsNone6 0x8000 1, .cartwrBsNoneLo 0xA000 1, .cartwrBsRam 0xC000 1, .cartwrBsNoneHi 0xBFFF 1].all
    (fun i => !i.wellFormed bsParams) = true := by decide

theorem test_wellFormed_refuses_nb_range : [Instr.cartrdNbRom 0x8000, .cartrdNbFatal 0x7FFF].all
    (fun i => !i.wellFormed nbParams) = true := by decide

theorem test_wellFormed_refuses_other_variant : ([Instr.cartrdNbRom 0x0000, .cartrdNbFatal 0x8000, .cartwrNb 0x0000 1].all
    (fun i => !i.wellFormed bsParams) && [Instr.cartrdBsBank0 0x0000, .cartrdBsWindow 0x4000, .cartrdBsRam 0xA000,
    .cartrdBsOpenLo 0x8000, .cartrdBsOpenHi 0xC000, .cartwrBsRamen 0x0000 1, .cartwrBsRomsel 0x2000 1, .cartwrBsRamsel 0x4000 1,
    .cartwrBsNone6 0x6000 1, .cartwrBsNoneLo 0x8000 1, .cartwrBsRam 0xA000 1, .cartwrBsNoneHi 0xC000 1].all
    (fun i => !i.wellFormed nbParams)) = true := by decide

/-! ### Decoding: a word for every constructor, from the vectors or written out from 30_encoding.md R91 and R92 -/

/-- Kind `0x0` (RT1 to RT5, program 1). -/
theorem test_decode_busrd : [0x0FF0000, 0x0FF0F00, 0x0FFFF00, 0x0412300, 0x0BFFF00, 0x09FFF00, 0x0FF0100].map (decode bsParams) =
    [.busrdKm, .busrdIf, .busrdIe, .busrdCartRom 0x4123, .busrdCartRam 0xBFFF, .busrdUnclaimedLo 0x9FFF,
      .busrdUnclaimedHi 0xFF01] := by decide

/-- Kind `0x1` (RT3 to RT6, program 1). -/
theorem test_decode_buswr : [0x1FF0020, 0x1FF0F1F, 0x1FFFF10, 0x1200005, 0x1A01077, 0x180000A, 0x1C00012].map (decode bsParams) =
    [.buswrKm 0x20, .buswrIf 0x1F, .buswrIe 0x10, .buswrCartRom 0x2000 0x05, .buswrCartRam 0xA010 0x77,
      .buswrUnclaimedLo 0x8000 0x0A, .buswrUnclaimedHi 0xC000 0x12] := by decide

/-- Kind `0x2` (K2, E6 to E8, program 2). -/
theorem test_decode_key : [0x2000000, 0x2000001, 0x2000002, 0x2FFFF03, 0x20000F4, 0x2000005, 0x2000006, 0x2000007, 0x2000008,
    0x200001F].map (decode bsParams) =
    [.keyUp, .keyDown, .keyLeft, .keyRight, .keyA, .keyB, .keyStart, .keySelect, .keyUnrecognized 0x8,
      .keyUnrecognized 0xF] := by decide

/-- Kinds `0x3` to `0x9` (E2 to E5, E9, program 2). -/
theorem test_decode_events : [0x3ABCDEF, 0x4000001, 0x5ABCDEF, 0x6000000, 0x70000E8, 0x8000010, 0x9FFFFFF].map (decode bsParams) =
    [.tick, .reset, .save, .load, .irqreq 0xE8, .ifclr 0x10, .ifrd] := by decide

/-- Kinds `0xA` and `0xB` on NoBanking (NB4, NB5, NB8). -/
theorem test_decode_cart_nb : [0xA7FFF00, 0xA800000, 0xB0134FF].map (decode nbParams) =
    [.cartrdNbRom 0x7FFF, .cartrdNbFatal 0x8000, .cartwrNb 0x0134 0xFF] := by decide

/-- Kind `0xA` on BankSwitching (X1, X2, X3, E13; `0xAC00000` from R96). -/
theorem test_decode_cartrd_bs : [0xA3FFF00, 0xA412300, 0xAA00000, 0xA800000, 0xAC00000].map (decode bsParams) =
    [.cartrdBsBank0 0x3FFF, .cartrdBsWindow 0x4123, .cartrdBsRam 0xA000, .cartrdBsOpenLo 0x8000, .cartrdBsOpenHi 0xC000] := by
  decide

/-- Kind `0xB` on BankSwitching (B7, B18, B20, X3; `0xB800055` and `0xBFFFF55` as NB10 writes them). -/
theorem test_decode_cartwr_bs : [0xB1FFF1A, 0xB2000FF, 0xB5FFFFC, 0xB600002, 0xB800055, 0xBA00011, 0xBFFFF55].map (decode bsParams) =
    [.cartwrBsRamen 0x1FFF 0x1A, .cartwrBsRomsel 0x2000 0xFF, .cartwrBsRamsel 0x5FFF 0xFC, .cartwrBsNone6 0x6000 0x02,
      .cartwrBsNoneLo 0x8000 0x55, .cartwrBsRam 0xA000 0x11, .cartwrBsNoneHi 0xFFFF 0x55] := by decide

/-- Kinds `0xC` to `0xF` (X5, E10, E11). -/
theorem test_decode_km_invalid : [0xCFF0000, 0xDFF0020, 0xE000000, 0xF123456].map (decode bsParams) =
    [.kmrd 0xFF00, .kmwr 0xFF00 0x20, .invalid 0, .invalid 1] := by decide

/-- `KEYMATRIX_ADDR` moves the router's row (RT10). -/
theorem test_decode_keymatrix_addr : [0x1FF8020, 0x0FF0000].map (decode { bsParams with keymatrixAddr := 0xFF80 }) =
    [.buswrKm 0x20, .busrdUnclaimedHi 0xFF00] := by decide

/-- The canonical words of E1 to E5. -/
theorem test_encode_canonical : [0x0123456, 0x3ABCDEF, 0x4000001, 0x5ABCDEF, 0x9FFFFFF].map
    (fun w => encode bsParams (decode bsParams w)) = [0x0123400, 0x3000000, 0x4000000, 0x5000000, 0x9000000] := by decide

/-- A number of more than 28 bits is no word (R91). -/
theorem test_decodeNat_rejects : (match decodeNat bsParams 0x10000000 with
    | .ok _ => none
    | .error r => some r) = some (.notTransactionWord 0x10000000) := by decide

/-- The key tokens of R98. -/
theorem test_key_tokens : ["up".toList, "down".toList, "left".toList, "right".toList, "a".toList, "b".toList, "start".toList,
    "select".toList, "x".toList].map keyCodeOfToken = [0, 1, 2, 3, 4, 5, 6, 7, 8] := by decide

/-! ### The text syntax (R111, R112) -/

theorem test_text_operation : parseLine bsParams "WR 0x2000, 0x05 ; select bank 5".toList = .op (.wr 0x2000 0x05) ∧
    (Op.wr 0x2000 0x05).word = 0x1200005 ∧ (Op.kwr 0xFF00 0x10).word = 0xDFF0010 := by decide

theorem test_text_pseudo : parseLine bsParams "ENRAM".toList = .op (.wr 0x0000 0x0A) ∧
    parseLine bsParams "SELROW1".toList = .op (.wr 0xFF00 0x10) ∧ parseLine bsParams "ACK 0x10".toList = .op (.ifclr 0x10) ∧
    parseLine bsParams "; a comment".toList = .blank ∧ parseLine bsParams "WR 0x10000, 0".toList = .notAnOperation := by decide

/-! ### NoBanking (family NB) -/

theorem test_nb_reads : answer (.cartrdNbRom 0x0134) nb = .byte 0x54 ∧ answer (.cartrdNbRom 0x7FFF) nb = .byte 0x80 := by decide

theorem test_nb_fatal : (after (.cartrdNbFatal 0x8000) nb).fault = some ⟨.noBankingReadOutOfRange, 0x8000⟩ ∧
    answer (.cartrdNbFatal 0x8000) nb = .nothing ∧
    (after (.busrdCartRam 0xA000) nb).fault = some ⟨.noBankingReadOutOfRange, 0xA000⟩ := by decide

theorem test_nb_write : answer (.cartrdNbRom 0x0134) (after (.cartwrNb 0x0134 0xFF) nb) = .byte 0x54 ∧
    (after (.cartwrNb 0xFFFF 0x55) nb).fault = none := by decide

/-- NB11. -/
theorem test_nb_save_load : answer .save nb = .ok ∧ answer .load nb = .ok ∧ (after .save nb).store = none := by decide

/-- NB12. -/
theorem test_nb_terminal : (match exec .tick (after (.cartrdNbFatal 0x8000) nb) with
    | .refused r => some r
    | _ => none) = some (.terminated ⟨.noBankingReadOutOfRange, 0x8000⟩) := by decide

/-! ### BankSwitching (family B, X1 to X3) -/

theorem test_bs_bank0 : answer (.cartrdBsBank0 0x3FFF) (after (.cartwrBsRomsel 0x2000 0x07) bs) = .byte 0x1F := by decide

theorem test_bs_window : answer (.cartrdBsWindow 0x4000) bs = .byte 0x20 ∧
    answer (.cartrdBsWindow 0x4123) { bs with romSel := 5 } = .byte 0xA3 ∧
    answer (.cartrdBsWindow 0x7FFF) { bs with romSel := 7 } = .byte 0xFF := by decide

/-- B5, B9, B11, B12, B14. -/
theorem test_bs_romsel : (after (.cartwrBsRomsel 0x2000 0x85) bs).romSel = 5 ∧
    (after (.cartwrBsRomsel 0x2000 0x00) { bs with romSel := 3 }).romSel = 3 ∧
    (after (.cartwrBsRomsel 0x2000 0x08) { bs with romSel := 3 }).romSel = 3 := by decide

theorem test_bs_romsel_clamp :
    (after (.cartwrBsRomsel 0x2000 0x00) { bs with romSel := 3, params := { bsParams with romOor := .clamp } }).romSel = 1 ∧
    (after (.cartwrBsRomsel 0x2000 0x09) { bs with romSel := 3, params := { bsParams with romOor := .clamp } }).romSel = 7 := by
  decide

/-- B18. -/
theorem test_bs_ramen : [0x00, 0x0A, 0x0B, 0x1A, 0xA0, 0xFA, 0x0A, 0xFF].map (fun v => (after (.cartwrBsRamen 0x0000 v) bs).ramEn) =
    [false, true, false, true, false, true, true, false] := by decide

/-- B20. -/
theorem test_bs_ramsel : [0x07, 0xFC, 0x02, 0xFD].map (fun v => (after (.cartwrBsRamsel 0x4000 v) bs).ramSel) = [3, 0, 2, 1] := by
  decide

/-- B21. -/
theorem test_bs_ram : (after (.cartwrBsRam 0xBFFF 0xA5) bs).ram = [(0x1FFF, 0xA5)] ∧
    answer (.cartrdBsRam 0xBFFF) { bs with ram := [(0x1FFF, 0xA5)] } = .byte 0xA5 ∧
    answer (.cartrdBsRam 0xA001) { bs with ram := [(0x1FFF, 0xA5)] } = .byte 0x00 := by decide

/-- X3 and B19. -/
theorem test_bs_ram_gated : (after (.cartwrBsRam 0xA000 0x22) { bs with ramEn := false, ram := [(0, 0x11)] }).ram = [(0, 0x11)] ∧
    answer (.cartrdBsRam 0xA000) { bs with ramEn := false, ram := [(0, 0x11)] } = .byte 0x00 ∧
    (after (.cartwrBsRamen 0x0000 0x0A) noRam).ramEn = false ∧ (after (.cartwrBsRamsel 0x4000 0x03) noRam).ramSel = 3 := by decide

/-- R144, R151, R153. -/
theorem test_bs_open : answer (.cartrdBsOpenLo 0x8000) bs = .byte 0x00 ∧ answer (.cartrdBsOpenHi 0xFFFF) bs = .byte 0x00 ∧
    after (.cartwrBsNone6 0x6000 0x02) bs = bs ∧ after (.cartwrBsNoneLo 0x8000 0x55) bs = bs ∧
    after (.cartwrBsNoneHi 0xFFFF 0x55) bs = bs := by decide

/-! ### The router (family RT) -/

theorem test_rt_reads : answer (.busrdCartRom 0x7FFF) bs = .byte 0x3F ∧
    answer (.busrdCartRam 0xA000) { bs with ram := [(0, 0x5A)] } = .byte 0x5A ∧ answer (.busrdUnclaimedLo 0x9FFF) bs = .byte 0x00 ∧
    answer (.busrdUnclaimedHi 0xC000) bs = .byte 0x00 := by decide

theorem test_rt_registers : answer .busrdIf { bs with ifReg := 0x1F } = .byte 0x1F ∧
    answer .busrdIe { bs with ieReg := 0x10 } = .byte 0x10 ∧ (after (.buswrIf 0x1F) bs).ifReg = 0x1F ∧
    (after (.buswrIe 0x10) bs).ieReg = 0x10 := by decide

theorem test_rt_writes : (after (.buswrCartRom 0x2000 0x05) bs).romSel = 5 ∧
    (after (.buswrCartRam 0xA010 0x77) { bs with ramSel := 2 }).ram = [(0x4010, 0x77)] ∧
    after (.buswrUnclaimedLo 0x8000 0x0A) bs = bs ∧ after (.buswrUnclaimedHi 0xC000 0x12) bs = bs := by decide

/-- RT11 and R251: in `EXT_MAP` the access goes out. -/
theorem test_rt_external : (after (.busrdUnclaimedLo 0x9FFF) ext).out = ⟨.byte 0x77, some (.read 0x9FFF)⟩ ∧
    (after (.buswrUnclaimedHi 0xC000 0x12) ext).out = ⟨.nothing, some (.write 0xC000 0x12)⟩ := by decide

/-! ### KeyMatrix, tick, interrupts (families K, T, I) -/

/-- K2. -/
theorem test_keys : [Instr.keyUp, .keyDown, .keyLeft, .keyRight, .keyA, .keyB, .keyStart, .keySelect, .keyUnrecognized 0x8].map
    (fun i => ((after i bs).row0, (after i bs).row1, (after i bs).ifReg)) =
    [(0xB, 0xF, 0x10), (0x7, 0xF, 0x10), (0xD, 0xF, 0x10), (0xE, 0xF, 0x10), (0xF, 0xE, 0x10), (0xF, 0xD, 0x10), (0xF, 0x7, 0x10),
      (0xF, 0xB, 0x10), (0xF, 0xF, 0x10)] := by decide

/-- X5, RT3. -/
theorem test_km_read : answer (.kmrd 0xFF00) { bs with row1 := 0xE, colSel := 0x10 } = .byte 0x0E ∧
    answer .busrdKm { bs with row0 := 0xB, colSel := 0x20 } = .byte 0x0B ∧ answer .busrdKm bs = .byte 0x00 := by decide

/-- R204. -/
theorem test_km_write : (after (.kmwr 0x1234 0xEF) bs).colSel = 0x20 ∧ (after (.buswrKm 0x20) bs).colSel = 0x20 := by decide

/-- T1, T4. -/
theorem test_tick_reset : [Instr.tick, .reset].map (fun i =>
      let t := after i { bs with colSel := 0x20, row0 := 0x3, ifReg := 0x10, romSel := 3 }
      (t.colSel, t.row0, t.row1, t.ifReg, t.romSel)) = [(0x00, 0xF, 0xF, 0x10, 3), (0x00, 0xF, 0xF, 0x10, 3)] := by decide

/-- R188 to R190. -/
theorem test_interrupts : (after (.irqreq 0xE8) { bs with ifReg := 0x11 }).ifReg = 0xF9 ∧
    (after (.ifclr 0x10) { bs with ifReg := 0x11 }).ifReg = 0x01 ∧ answer .ifrd { bs with ifReg := 0x11 } = .byte 0x11 := by decide

/-! ### Save store, boundary (program 3, E10) -/

theorem test_save_load : (after .save { bs with ram := [(0x7FFF, 0xEE)] }).store = some [(0x7FFF, 0xEE)] ∧
    answer .load bs = .error .persistenceError ∧
    (after .load { bs with ram := [(0x7FFF, 0x11)], store := some [(0x7FFF, 0xEE)] }).ram = [(0x7FFF, 0xEE)] := by decide

/-- R173, R175. -/
theorem test_save_load_fail :
    after .save { bs with draws := ⟨true, false, 0⟩, ram := [(0, 1)] } =
      { bs with draws := ⟨true, false, 0⟩, ram := [(0, 1)], out := ⟨.error .persistenceError, none⟩ } ∧
    after .load { bs with draws := ⟨false, true, 0⟩, store := some [(0, 1)] } =
      { bs with draws := ⟨false, true, 0⟩, store := some [(0, 1)], out := ⟨.error .persistenceError, none⟩ } := by decide

theorem test_invalid : after (.invalid 0) bs = { bs with out := ⟨.invalid, none⟩ } := by decide

/-- One whole step from `State.reset`: program 1, step 2. -/
theorem test_step_from_reset : step (State.reset.withFetchWord 28 0x1200005) = .next { State.reset with romSel := 5 } := by rfl

/-! ### Construction (NB13, NB14, RT12, R154) -/

/-- Arguments of a BankSwitching construction with two banks. -/
def buildBs : BuildArgs where
  variant := .bankSwitching
  rawImage := [(0x7FFF, 0x3F)]
  rawLength := 0x8000
  romSize := 0x8000
  ramSize := 0x2000
  battery := true
  romOor := .reject
  ramInit := []
  keymatrixAddr := 0xFF00
  selRow0 := 0x20
  selRow1 := 0x10
  keymap := Config.defaultKeyMap
  ifReset := 0x00
  extMap := []

/-- NB13's raw image: a larger one. -/
def buildNb : BuildArgs := { buildBs with
  variant := .noBanking, rawImage := [(0x7FFF, 0x80), (0x8000, 0xEE)], rawLength := 0x10000 }

/-- The refusal of a construction. -/
def refusal (b : BuildArgs) : Option BuildRefusal :=
  match construct b with
  | .ok _ => none
  | .error r => some r

theorem test_construct_truncates : construct buildNb = .ok { nbParams with image := [(0x7FFF, 0x80)], banks := 2 } := by rfl

theorem test_construct_refuses : refusal buildBs = none ∧ refusal { buildNb with rawLength := 0x9000 } = none ∧
    refusal { buildNb with rawImage := [], rawLength := 0x4000 } = some .imageTooShort ∧
    refusal { buildBs with romSize := 0x8001 } = some .romSizeNotBanks ∧
    refusal { buildBs with ramSize := 0x0800 } = some .ramSizeNotBanks ∧
    refusal { buildBs with romSize := 0x4000 } = some .noSwitchableBank ∧
    refusal { buildBs with romSize := 0xC000 } = some .imageTooShort ∧
    refusal { buildBs with rawImage := [(0, 0)] } = some .notCanonical ∧
    refusal { buildBs with selRow0 := 0x10 } = some .selectCodes ∧
    refusal { buildBs with keymap := { Config.defaultKeyMap with up := ⟨0, 0⟩ } } = some .keymapNotInjective := by decide

/-- RT12. -/
theorem test_construct_keymatrix : [0xFF0F, 0xFFFF, 0x4000, 0xA123].map (fun a => refusal { buildBs with keymatrixAddr := a }) =
    [some .keymatrixAddress, some .keymatrixAddress, some .keymatrixAddress, some .keymatrixAddress] := by decide

/-! ### Witnesses: the hypotheses of each statement hold together somewhere -/

/-- `s` performs `i`. -/
def performs (i : Instr) (s : State) : Bool :=
  match exec i s with
  | .next _ => true
  | .fault _ => false
  | .refused _ => false

/-- What `performs` says of `exec`. -/
theorem performs_next {i : Instr} {s : State} (h : performs i s = true) : exec i s = .next (after i s) := by
  unfold performs at h
  unfold after
  cases he : exec i s with
  | next t => rfl
  | fault f => rw [he] at h; cases h
  | refused f => rw [he] at h; cases h

theorem bs_inv : bs.Inv where
  valid := by decide
  romSelLow := by decide
  romSelHigh := by decide
  ramEnNeedsRam := by decide
  colSelBits := by decide
  ramSized := by decide
  ramNeedsRam := by decide
  storeSized := by intro m h; cases h

theorem nb_inv : nb.Inv where
  valid := by decide
  romSelLow := by decide
  romSelHigh := by decide
  ramEnNeedsRam := by decide
  colSelBits := by decide
  ramSized := by decide
  ramNeedsRam := by decide
  storeSized := by intro m h; cases h

theorem witness_DecodeOfEncodeIsIdentity : validParams bsParams = true ∧ validParams nbParams = true ∧
    (Instr.cartrdBsWindow 0x7FFF).wellFormed bsParams = true ∧ (Instr.busrdUnclaimedHi 0xFFFE).wellFormed bsParams = true ∧
    (Instr.keyUnrecognized 0xF).wellFormed bsParams = true ∧ (Instr.cartrdNbFatal 0xFFFF).wellFormed nbParams = true := by decide

theorem witness_EveryWordSelectsItsOneRow : validParams bsParams = true ∧ validParams nbParams = true := by decide

theorem witness_StepPerformsTheOldestWord :
    (bs.fault = none ∧ ({ bs with inbox := [⟨0x3000000, ⟨true, true, 0xFF⟩⟩] } : State).inbox = ⟨0x3000000, ⟨true, true, 0xFF⟩⟩ :: [] ∧
      decode bsParams 0x3000000 = .tick) ∧ decodeNat bsParams 0x3000000 = .ok .tick :=
  ⟨by decide, rfl⟩

theorem witness_BlockOriginatesNothing : bs.fault = none ∧ bs.inbox = [] := by decide

theorem witness_TerminalBlockRefusesEverything :
    (after (.cartrdNbFatal 0x8000) nb).fault = some ⟨.noBankingReadOutOfRange, 0x8000⟩ := by decide

theorem witness_NoBankingReadsTheImage : nb.fault = none ∧ nb.params.variant = .noBanking ∧
    (0x7FFF : Addr) &&& 0x8000 = 0x0000 := by decide

theorem witness_NoBankingOutOfRangeReadIsFatal : nb.fault = none ∧ nb.params.variant = .noBanking ∧
    (0x8000 : Addr) &&& 0x8000 = 0x8000 := by decide

theorem witness_NoBankingWriteIsNoOp : nb.fault = none ∧ nb.params.variant = .noBanking := by decide

theorem witness_BankZeroIsFixed : bs.fault = none ∧ bs.params.variant = .bankSwitching ∧ 2 ≤ bs.params.banks ∧
    (0x3FFF : Addr) &&& 0xC000 = 0x0000 := by decide

theorem witness_WindowShowsTheSelectedBank :
    let s : State := { bs with romSel := 7 }
    s.fault = none ∧ s.params.variant = .bankSwitching ∧ 1 ≤ s.romSel.toNat ∧ s.romSel.toNat ≤ s.params.banks - 1 ∧
    (0x7FFF : Addr) &&& 0xC000 = 0x4000 := by decide

theorem witness_CartRamReadIsGated : bs.fault = none ∧ bs.params.variant = .bankSwitching ∧
    (0xBFFF : Addr) &&& 0xE000 = 0xA000 := by decide

theorem witness_OpenCartridgeAddressesReadZero : bs.fault = none ∧ bs.params.variant = .bankSwitching ∧
    (0x9FFF : Addr) &&& 0xE000 = 0x8000 ∧ (0xC000 : Addr) &&& 0xC000 = 0xC000 := by decide

theorem witness_RamEnableWriteSetsTheFlag : bs.fault = none ∧ bs.params.variant = .bankSwitching ∧
    (0x1FFF : Addr) &&& 0xE000 = 0x0000 ∧ bs.params.hasRam = true ∧ noRam.fault = none ∧
    noRam.params.variant = .bankSwitching ∧ noRam.params.hasRam = false := by decide

theorem witness_RomSelectWrite : bs.fault = none ∧ bs.params.variant = .bankSwitching ∧ (0x3FFF : Addr) &&& 0xE000 = 0x2000 ∧
    2 ≤ bs.params.banks ∧ (1 ≤ (0x87 : Byte).toNat % 128 ∧ (0x87 : Byte).toNat % 128 ≤ bs.params.banks - 1) ∧
    (0x80 : Byte).toNat % 128 = 0 ∧ bs.params.banks ≤ (0x08 : Byte).toNat % 128 ∧ bs.params.romOor = .reject := by decide

theorem witness_RomSelectWrite_clamp :
    let s : State := { bs with params := { bsParams with romOor := .clamp } }
    s.fault = none ∧ s.params.variant = .bankSwitching ∧ (0x2000 : Addr) &&& 0xE000 = 0x2000 ∧ 2 ≤ s.params.banks ∧
    (0x00 : Byte).toNat % 128 = 0 ∧ s.params.banks ≤ (0xFF : Byte).toNat % 128 ∧ s.params.romOor = .clamp := by decide

theorem witness_RamSelectWrite : bs.fault = none ∧ bs.params.variant = .bankSwitching ∧
    (0x5FFF : Addr) &&& 0xE000 = 0x4000 := by decide

theorem witness_OtherCartridgeWritesDoNothing : bs.fault = none ∧ bs.params.variant = .bankSwitching ∧
    (0x7FFF : Addr) &&& 0xE000 = 0x6000 ∧ (0x9FFF : Addr) &&& 0xE000 = 0x8000 ∧ (0xC000 : Addr) &&& 0xC000 = 0xC000 := by decide

theorem witness_RamWriteStoresOneByte : bs.fault = none ∧ bs.params.variant = .bankSwitching ∧
    (0xBFFF : Addr) &&& 0xE000 = 0xA000 ∧ bs.ram.wf = true ∧ (bs.params.hasRam = true ∧ bs.ramEn = true) ∧
    noRam.ram.wf = true ∧ noRam.params.hasRam = false ∧ ({ bs with ramEn := false } : State).ramEn = false := by decide

theorem witness_RamReadsBackWhatWasWritten : bs.fault = none ∧ bs.params.variant = .bankSwitching ∧ bs.ram.wf = true ∧
    (0xA000 : Addr) &&& 0xE000 = 0xA000 ∧ (0xBFFF : Addr) &&& 0xE000 = 0xA000 := by decide

theorem witness_BusReadOfCartridgeRom : (bs.fault = none ∧ bs.Inv) ∧ (nb.fault = none ∧ nb.Inv) ∧
    (0x7FFF : Addr) &&& 0x8000 = 0x0000 := ⟨⟨rfl, bs_inv⟩, ⟨rfl, nb_inv⟩, by decide⟩

theorem witness_BusReadOfRamWindow : bs.fault = none ∧ (0xA000 : Addr) &&& 0xE000 = 0xA000 ∧ bs.params.variant = .bankSwitching ∧
    nb.fault = none ∧ nb.params.variant = .noBanking := by decide

theorem witness_BusWriteEqualsCartridgeWrite : bs.fault = none ∧ nb.fault = none ∧ (0x7FFF : Addr) &&& 0x8000 = 0x0000 ∧
    (0xA000 : Addr) &&& 0xE000 = 0xA000 := by decide

theorem witness_UnclaimedAddresses : bs.fault = none ∧ ext.fault = none ∧ 0x9FFF ∉ bs.params.extMap ∧ 0x9FFF ∈ ext.params.extMap ∧
    0xC000 ∈ ext.params.extMap := by decide

/-- A block that runs: the one hypothesis of the statements about single operations of the router, the KeyMatrix, the
interrupt sink and the boundary. -/
theorem witness_running : bs.fault = none ∧ nb.fault = none := by decide

theorem witness_BusReadFollowsTheRouter : bs.fault = none := witness_running.1
theorem witness_BusWriteFollowsTheRouter : bs.fault = none := witness_running.1
theorem witness_CartridgePortFollowsTheRanges : bs.fault = none ∧ nb.fault = none := witness_running
theorem witness_BusAccessOfInterruptRegisters : bs.fault = none := witness_running.1
theorem witness_UnrecognizedTokenOnlyInterrupts : bs.fault = none := witness_running.1
theorem witness_ResetRestoresTheKeyMatrix : bs.fault = none := witness_running.1
theorem witness_TickRestoresTheKeyMatrix : bs.fault = none := witness_running.1
theorem witness_InterruptFlagOperations : bs.fault = none := witness_running.1
theorem witness_InvalidWordChangesNothing : bs.fault = none := witness_running.1

theorem witness_KeyMatrixReadExposesTheSelectedRow : bs.fault = none ∧ bs.params.selRow0 ≠ bs.params.selRow1 ∧
    ({ bs with colSel := 0x20 } : State).colSel = bs.params.selRow0 ∧ ({ bs with colSel := 0x10 } : State).colSel = bs.params.selRow1 ∧
    ({ bs with colSel := 0x30 } : State).colSel ≠ bs.params.selRow0 ∧ ({ bs with colSel := 0x30 } : State).colSel ≠ bs.params.selRow1 := by
  decide

theorem witness_KeyMatrixWriteSelectsTheColumn : bs.fault = none ∧
    (Instr.buswrKm 0xFF = .kmwr 0x0000 0xFF ∨ Instr.buswrKm 0xFF = .buswrKm 0xFF) := by decide

theorem witness_KeyEventClearsItsOneBit : bs.fault = none ∧ (Instr.keySelect, Key.select) ∈
    [(Instr.keyUp, Key.up), (.keyDown, .down), (.keyLeft, .left), (.keyRight, .right), (.keyA, .a), (.keyB, .b),
      (.keyStart, .start), (.keySelect, .select)] := by decide

/-- One word, with draws that do not matter to it. -/
def request (w : TWord) : Request := ⟨w, ⟨false, false, 0x00⟩⟩

/-- The state after `perform`; the same state where it stops. -/
def afterAll (rs : List Request) (s : State) : State :=
  match perform rs s with
  | .next t => t
  | .fault _ => s
  | .refused _ => s

/-- Two presses with a tick between them (T3): the later press alone explains the rows. -/
theorem witness_RowBitsAreExplainedByPresses : bs.row0 = 0xF ∧ bs.row1 = 0xF ∧
    perform [request 0x2000000, request 0x3000000, request 0x2000005] bs =
      .next (afterAll [request 0x2000000, request 0x3000000, request 0x2000005] bs) ∧
    (afterAll [request 0x2000000, request 0x3000000, request 0x2000005] bs).row 1 = 0xD := ⟨rfl, rfl, rfl, rfl⟩

theorem witness_OnlyTheControllerClearsRequests : exec (.ifclr 0x10) { bs with ifReg := 0x10 } =
      .next (after (.ifclr 0x10) { bs with ifReg := 0x10 }) ∧ ({ bs with ifReg := 0x10 } : State).ifReg.getLsbD 4 = true ∧
    (after (.ifclr 0x10) { bs with ifReg := 0x10 }).ifReg.getLsbD 4 = false := ⟨performs_next (by decide), by decide, by decide⟩

theorem witness_RequestsComeFromTheirSources : exec (.irqreq 0x80) bs = .next (after (.irqreq 0x80) bs) ∧
    bs.ifReg.getLsbD 7 = false ∧ (after (.irqreq 0x80) bs).ifReg.getLsbD 7 = true := ⟨performs_next (by decide), by decide, by decide⟩

theorem witness_InterruptEnableIsNotConsulted : Instr.irqreq 0x01 ≠ .busrdIe ∧
    exec (.irqreq 0x01) bs = .next (after (.irqreq 0x01) bs) := ⟨by decide, performs_next (by decide)⟩

theorem witness_SaveWritesTheWholeRecord : bs.fault = none ∧ bs.params.variant = .bankSwitching ∧ bs.params.hasRam = true ∧
    bs.params.hasBattery = true ∧ bs.draws.saveFails = false ∧ ({ bs with draws := ⟨true, false, 0⟩ } : State).draws.saveFails = true ∧
    nb.fault = none ∧ nb.params.variant = .noBanking ∧ noRam.params.hasRam = false := by decide

theorem witness_LoadReplacesAllBanks : bs.fault = none ∧ bs.params.variant = .bankSwitching ∧ bs.params.hasRam = true ∧
    bs.params.hasBattery = true ∧ bs.store = none ∧ ({ bs with store := some [(0x7FFF, 1)] } : State).store = some [(0x7FFF, 1)] ∧
    bs.draws.loadFails = false ∧ nb.params.variant = .noBanking ∧ noRam.params.hasRam = false := by decide

/-- `SAVE`, a RAM write, `LOAD` (program 3, part a). -/
theorem witness_SaveThenLoadRestoresRam :
    let t := after .save bs
    let u := afterAll [request 0x1BFFF11] t
    bs.params.variant = .bankSwitching ∧ bs.params.hasRam = true ∧ bs.params.hasBattery = true ∧ exec .save bs = .next t ∧
    t.out.response = .ok ∧ (∀ q ∈ [request 0x1BFFF11], decode bs.params q.word ≠ .save) ∧ perform [request 0x1BFFF11] t = .next u ∧
    u.ram = [(0x1FFF, 0x11)] ∧ exec .load u = .next (after .load u) ∧ (after .load u).out.response = .ok ∧
    noRam.fault = none ∧ noRam.params.hasRam = false :=
  ⟨rfl, rfl, rfl, rfl, rfl, by decide, rfl, rfl, rfl, rfl, rfl, rfl⟩

theorem witness_OnlyTheStoreSurvivesAPowerCycle :
    let s : State := { bs with ram := [(0x7FFF, 0xEE)] }
    let v : State := { powerCycle 0x00 (after .save s) with draws := ⟨false, false, 0⟩ }
    s.params.variant = .bankSwitching ∧ s.params.hasRam = true ∧ s.params.hasBattery = true ∧ exec .save s = .next (after .save s) ∧
    (after .save s).out.response = .ok ∧ exec .load v = .next (after .load v) ∧ (after .load v).out.response = .ok :=
  ⟨rfl, rfl, rfl, rfl, rfl, rfl, rfl⟩

theorem witness_SilentNoOpsReturnZeroOrNothing : bs.fault = none ∧ silentNoOp bs (.busrdUnclaimedHi 0xC000) = true ∧
    silentNoOp noRam (.cartwrBsRamen 0x0000 0x0A) = true ∧ silentNoOp noRam (.cartrdBsRam 0xBFFF) = true ∧
    silentNoOp nb (.cartwrNb 0xFFFF 0x55) = true := by decide

/-- The routed forms, at the ends of their ranges (R151's example is `WR 0x6000, 0x01`). -/
theorem witness_SilentNoOpsReturnZeroOrNothing_routed : noRam.fault = none ∧ silentNoOp bs (.buswrCartRom 0x6000 0x01) = true ∧
    silentNoOp bs (.buswrCartRom 0x7FFF 0x01) = true ∧ silentNoOp noRam (.buswrCartRom 0x1FFF 0x0A) = true ∧
    silentNoOp noRam (.buswrCartRam 0xA000 0x55) = true ∧ silentNoOp { bs with ramEn := false } (.buswrCartRam 0xBFFF 0x55) = true ∧
    silentNoOp noRam (.busrdCartRam 0xBFFF) = true ∧ silentNoOp { bs with ramEn := false } (.busrdCartRam 0xA000) = true ∧
    silentNoOp nb (.buswrCartRom 0x2000 0x01) = true ∧ silentNoOp nb (.buswrCartRam 0xA000 0x12) = true := by decide

/-- What is not of the class: the selects, an open RAM, the fatal read. -/
theorem test_silentNoOp_excludes : silentNoOp bs (.buswrCartRom 0x2000 0x01) = false ∧ silentNoOp bs (.buswrCartRom 0x5FFF 0x01) = false ∧
    silentNoOp bs (.buswrCartRom 0x0000 0x0A) = false ∧ silentNoOp bs (.buswrCartRam 0xA000 0x55) = false ∧
    silentNoOp bs (.busrdCartRam 0xA000) = false ∧ silentNoOp nb (.busrdCartRam 0xA000) = false := by decide

theorem witness_RomIsNeverWritten : exec (.cartwrNb 0x0134 0xFF) nb = .next (after (.cartwrNb 0x0134 0xFF) nb) :=
  performs_next (by decide)

theorem witness_RamChangesOnlyByWritesAndLoad : (Instr.buswrCartRam 0xA000 0x01).wellFormed bs.params = true ∧
    exec (.buswrCartRam 0xA000 0x01) bs = .next (after (.buswrCartRam 0xA000 0x01) bs) ∧
    (after (.buswrCartRam 0xA000 0x01) bs).ram ≠ bs.ram := ⟨by decide, performs_next (by decide), by decide⟩

theorem witness_RowsChangeOnlyByKeysAndResets : exec .keyUp bs = .next (after .keyUp bs) ∧
    ((after .keyUp bs).row0 ≠ bs.row0 ∨ (after .keyUp bs).row1 ≠ bs.row1) := ⟨performs_next (by decide), by decide⟩

theorem witness_FatalErrorHasOneCause : (Instr.busrdCartRam 0xBFFF).wellFormed nb.params = true ∧
    exec (.busrdCartRam 0xBFFF) nb = .next (after (.busrdCartRam 0xBFFF) nb) ∧
    (after (.busrdCartRam 0xBFFF) nb).fault ≠ none := ⟨by decide, performs_next (by decide), by decide⟩

theorem witness_DevicesKeepToTheirOwnState :
    (exec (.cartwrBsRamsel 0x4000 0x03) bs = .next (after (.cartwrBsRamsel 0x4000 0x03) bs) ∧
      portOf (.cartwrBsRamsel 0x4000 0x03) = some .cart) ∧
    (exec .keyA bs = .next (after .keyA bs) ∧ portOf .keyA = some .key) ∧
    (exec (.irqreq 0x01) bs = .next (after (.irqreq 0x01) bs) ∧ portOf (.irqreq 0x01) = some .sink) :=
  ⟨⟨performs_next (by decide), rfl⟩, ⟨performs_next (by decide), rfl⟩, ⟨performs_next (by decide), rfl⟩⟩

theorem witness_OperationsAreIdempotent : bs.ram.wf = true ∧
    exec (.cartwrBsRam 0xA000 0x01) bs = .next (after (.cartwrBsRam 0xA000 0x01) bs) ∧
    (after (.cartwrBsRam 0xA000 0x01) bs).fault = none := ⟨by decide, performs_next (by decide), by decide⟩

theorem witness_ConstructionAdmitsOnlySoundCartridges : construct buildBs = .ok buildBs.params ∧
    buildBs.variant = .bankSwitching ∧ ({ buildBs with romSize := 0x8001 } : BuildArgs).romSize % 0x4000 ≠ 0 ∧
    ({ buildBs with ramSize := 0x1FFF } : BuildArgs).ramSize % 0x2000 ≠ 0 ∧ ({ buildBs with romSize := 0x4000 } : BuildArgs).romSize / 0x4000 < 2 ∧
    ({ buildBs with rawLength := 0x7FFF } : BuildArgs).rawLength < buildBs.romSize / 0x4000 * 0x4000 ∧
    ({ buildNb with rawLength := 0x7FFF } : BuildArgs).variant = .noBanking ∧ ({ buildNb with rawLength := 0x7FFF } : BuildArgs).rawLength < 0x8000 :=
  ⟨rfl, rfl, by decide, by decide, by decide, by decide, rfl, by decide⟩

/-- The premises of the two successes: two whole banks exactly, and an image longer than 32 KiB. -/
theorem witness_ConstructionAdmitsOnlySoundCartridges_succeeds :
    (buildBs.checks.all fun c => c.1) = true ∧ (buildNb.checks.all fun c => c.1) = true ∧
    (Memory.sized buildBs.rawImage buildBs.rawLength = true ∧ Memory.sized buildBs.ramInit Config.ramSize = true ∧
      keymatrixAddrOk buildBs.keymatrixAddr = true ∧ selectCodesOk buildBs.selRow0 buildBs.selRow1 = true ∧
      keymapOk buildBs.keymap = true ∧ buildBs.variant = .bankSwitching ∧ buildBs.romSize % 0x4000 = 0 ∧ buildBs.ramSize % 0x2000 = 0 ∧
      2 ≤ buildBs.romSize / 0x4000 ∧ buildBs.romSize / 0x4000 * 0x4000 ≤ buildBs.rawLength) ∧
    (Memory.sized buildNb.rawImage buildNb.rawLength = true ∧ Memory.sized buildNb.ramInit Config.ramSize = true ∧
      keymatrixAddrOk buildNb.keymatrixAddr = true ∧ selectCodesOk buildNb.selRow0 buildNb.selRow1 = true ∧
      keymapOk buildNb.keymap = true ∧ buildNb.variant = .noBanking ∧ 0x8000 ≤ buildNb.rawLength) := by decide

theorem witness_PowerOnValues : bsParams.hasRam = true := by decide

theorem witness_PowerOnMeetsTheInvariants : validParams bsParams = true ∧
    (∀ m, some [(0x7FFF, 0xEE)] = some m → Memory.sized m Config.ramSize = true) :=
  ⟨by decide, fun m h => by cases h; decide⟩

theorem witness_StepKeepsTheInvariants : State.Inv { bs with inbox := [request 0x1BFFF11] } ∧
    step { bs with inbox := [request 0x1BFFF11] } = .next (after (.buswrCartRam 0xBFFF 0x11) bs) :=
  ⟨⟨bs_inv.1, bs_inv.2, bs_inv.3, bs_inv.4, bs_inv.5, bs_inv.6, bs_inv.7, bs_inv.8⟩, rfl⟩

theorem witness_SoundBlockNeverStops : (State.Inv { bs with inbox := [request 0xFFFFFFF] } ∧
      ({ bs with inbox := [request 0xFFFFFFF] } : State).fault = none ∧ bs.params.variant = .bankSwitching) ∧
    nb.Inv ∧ nb.fault = none :=
  ⟨⟨⟨bs_inv.1, bs_inv.2, bs_inv.3, bs_inv.4, bs_inv.5, bs_inv.6, bs_inv.7, bs_inv.8⟩, rfl, rfl⟩, nb_inv, rfl⟩

end Sys2Proof.Tests
end

section
/-! PROOFS. The family of 10_state.md: the power-on values (R40, R300), the invariants of R23 at power-on and over every
step, and that a running block in a sound state goes on. -/

namespace Sys2Proof.Machine

/-! ### Admitted parameters, and power-on -/

/-- An admitted `RAM_INIT` is four canonical banks. -/
theorem ramInit_sized_of_validParams {p : Params} (h : validParams p = true) :
    p.ramInit.sized Config.ramSize = true := by
  simp only [validParams, Bool.and_eq_true] at h
  obtain ⟨⟨-, hram⟩, -⟩ := h
  exact hram

/-- An admitted BankSwitching cartridge has a switchable bank (41_cartridge_bankswitching.md R154). -/
theorem two_le_banks_of_validParams {p : Params} (h : validParams p = true) (hv : p.variant = .bankSwitching) :
    2 ≤ p.banks := by
  simp only [validParams, Bool.and_eq_true] at h
  obtain ⟨-, hcart⟩ := h
  simpa [cartridgeOk, hv] using hcart

/-- Settles O54: the fields of `State.powerOn`, with `RAM_INIT` standing in `ram` where there is RAM. -/
theorem powerOnValues : Obligations.PowerOnValues := by
  intro p store ie
  have hram : p.hasRam = true → (State.powerOn p store ie).ram = p.ramInit := fun h => if_pos h
  exact ⟨rfl, rfl, rfl, rfl, hram, rfl, rfl, rfl, rfl, rfl, rfl, rfl⟩

/-- Settles O57: bank 1 is switchable because an admitted cartridge has two banks; the memories are `RAM_INIT` or
nothing, and the given store. -/
theorem powerOnMeetsTheInvariants : Obligations.PowerOnMeetsTheInvariants := by
  intro p store ie hp hstore
  exact
    { valid := hp
      romSelLow := fun _ => Nat.le_refl 1
      romSelHigh := fun hv => Nat.le_sub_one_of_lt (two_le_banks_of_validParams hp hv)
      ramEnNeedsRam := id
      colSelBits := BitVec.zero_and
      ramSized := by
        simp only [State.powerOn]
        split
        · exact ramInit_sized_of_validParams hp
        · exact Memory.sized_nil _
      ramNeedsRam := fun hno => if_neg (ne_true_of_eq_false hno)
      storeSized := hstore }

/-- Settles O56: `State.reset` is a power-on with admitted parameters and no save record. -/
theorem resetMeetsTheInvariants : Obligations.ResetMeetsTheInvariants :=
  powerOnMeetsTheInvariants Config.defaultParams none 0x00 (by decide) (fun _ h => nomatch h)

/-! ### Each shared operation keeps the invariants -/

/-- RAM that is open is present. -/
theorem State.hasRam_of_ramOpen {s : State} (h : s.ramOpen = true) : s.params.hasRam = true := by
  rw [State.ramOpen, Bool.and_eq_true] at h
  exact h.1

namespace State.Inv

variable {s t : State}

/-- The invariants speak of six fields alone; a state that agrees in them has the invariants too. -/
theorem of_same_fields (h : s.Inv) (params : t.params = s.params := by rfl) (romSel : t.romSel = s.romSel := by rfl)
    (ramEn : t.ramEn = s.ramEn := by rfl) (ram : t.ram = s.ram := by rfl) (colSel : t.colSel = s.colSel := by rfl)
    (store : t.store = s.store := by rfl) : t.Inv where
  valid := params ▸ h.valid
  romSelLow := by rw [params, romSel]; exact h.romSelLow
  romSelHigh := by rw [params, romSel]; exact h.romSelHigh
  ramEnNeedsRam := by rw [params, ramEn]; exact h.ramEnNeedsRam
  colSelBits := colSel ▸ h.colSelBits
  ramSized := ram ▸ h.ramSized
  ramNeedsRam := by rw [params, ram]; exact h.ramNeedsRam
  storeSized := store ▸ h.storeSized

theorem reply (h : s.Inv) (r : Response) : (s.reply r).Inv := h.of_same_fields

theorem replyExternal (h : s.Inv) (r : Response) (x : ExtAccess) : (s.replyExternal r x).Inv := h.of_same_fields

theorem accept (h : s.Inv) (q : Request) (rest : List Request) : (s.accept q rest).Inv := h.of_same_fields

theorem fatal (h : s.Inv) (f : FatalRecord) (o : Output) : State.Inv { s with fault := some f, out := o } :=
  h.of_same_fields

theorem pressKey (h : s.Inv) (k : Key) : (pressKey k s).Inv := by
  rw [pressKey_eq]
  exact h.of_same_fields

/-- A column select keeps bits 4 and 5 of the datum alone (44_keymatrix.md R204). -/
theorem kmWrite (h : s.Inv) (v : Byte) : (kmWrite v s).Inv where
  __ := h
  colSelBits := by
    have hmask : (0x30 : Byte) &&& 0xCF = 0x00 := by decide
    rw [kmWrite_colSel, BitVec.and_assoc, hmask]
    exact BitVec.and_zero

theorem keyMatrixReset (h : s.Inv) : (keyMatrixReset s).Inv where
  __ := h
  colSelBits := BitVec.zero_and

/-- Only a block with RAM sets the enable flag (41_cartridge_bankswitching.md R145). -/
theorem bsWriteRamEnable (h : s.Inv) (v : Byte) : (bsWriteRamEnable v s).Inv := by
  rcases bsWriteRamEnable_cases v s with ⟨-, heq⟩ | ⟨hram, heq⟩ <;> rw [heq]
  · exact h
  · exact { h with ramEnNeedsRam := fun _ => hram }

/-- A ROM select leaves a switchable bank selected (41_cartridge_bankswitching.md R146 to R148). -/
theorem bsWriteRomSelect (h : s.Inv) (v : Byte) : (bsWriteRomSelect v s).Inv where
  __ := h
  romSelLow hv := (selectedRomBank_bounds _ _ v _ (h.romSelLow hv) (h.romSelHigh hv)).1
  romSelHigh hv := (selectedRomBank_bounds _ _ v _ (h.romSelLow hv) (h.romSelHigh hv)).2

theorem bsWriteRamSelect (h : s.Inv) (v : Byte) : (bsWriteRamSelect v s).Inv := h.of_same_fields

/-- A RAM write stores inside the four banks, and only where there is RAM (41_cartridge_bankswitching.md R152). -/
theorem bsWriteRam (h : s.Inv) (a : Addr) (v : Byte) : (bsWriteRam a v s).Inv := by
  rcases bsWriteRam_cases a v s with ⟨-, heq⟩ | ⟨hopen, heq⟩ <;> rw [heq]
  · exact h
  · have hram := State.hasRam_of_ramOpen hopen
    exact { h with
      ramSized := Memory.sized_write s.ram _ _ v h.ramSized (ramKey_lt _ _)
      ramNeedsRam := fun hno => absurd (hram.symm.trans hno) (by decide) }

theorem cartWrite (h : s.Inv) (a : Addr) (v : Byte) : (cartWrite a v s).Inv := by
  rcases cartWrite_cases a v s with heq | ⟨-, ⟨-, heq⟩ | ⟨-, -, heq⟩ | ⟨-, -, heq⟩ | ⟨-, -, heq⟩⟩ <;> rw [heq]
  · exact h
  · exact h.bsWriteRamEnable v
  · exact h.bsWriteRomSelect v
  · exact h.bsWriteRamSelect v
  · exact h.bsWriteRam a v

/-- `SAVE` makes RAM the record, and RAM is four banks. -/
theorem saveRam (h : s.Inv) : (saveRam s).Inv := by
  rcases saveRam_cases s with ⟨r, heq⟩ | ⟨-, -, -, heq⟩ <;> rw [heq]
  · exact h.reply r
  · have hsaved : State.Inv { s with store := some s.ram } :=
      { h with storeSized := fun m hm => Option.some.inj hm ▸ h.ramSized }
    exact hsaved.reply .ok

/-- `LOAD` makes the record RAM, and the record is four banks. -/
theorem loadRam (h : s.Inv) : (loadRam s).Inv := by
  rcases loadRam_cases s with ⟨r, heq⟩ | ⟨-, hram, -, m, hm, heq⟩ <;> rw [heq]
  · exact h.reply r
  · have hloaded : State.Inv { s with ram := m } :=
      { h with
        ramSized := h.storeSized m hm
        ramNeedsRam := fun hno => absurd (hram.symm.trans hno) (by decide) }
    exact hloaded.reply .ok

end State.Inv

/-! ### Every step keeps the invariants -/

/-- Every effect an operation can have keeps the invariants. -/
theorem Effect.keeps_inv {s t : State} {i : Instr} (e : Effect s i t) (h : s.Inv) : t.Inv := by
  cases e with
  | answers _ r => exact h.reply r
  | external _ r x => exact h.replyExternal r x
  | fatalCart a => exact h.fatal _ _
  | fatalBus _ a => exact h.fatal _ _
  | column _ v => exact (h.kmWrite v).reply _
  | writesIf v => exact h.of_same_fields
  | writesIe v => exact h.of_same_fields
  | busCart _ a v => exact (h.cartWrite a v).reply _
  | press _ k => exact (h.pressKey k).reply _
  | unknownKey c => exact h.of_same_fields
  | releases => exact h.keyMatrixReset.reply _
  | saves => exact h.saveRam
  | loads => exact h.loadRam
  | requests m => exact h.of_same_fields
  | clears m => exact h.of_same_fields
  | ramEnable a v => exact (h.bsWriteRamEnable v).reply _
  | romSelect a v => exact (h.bsWriteRomSelect v).reply _
  | ramSelect a v => exact (h.bsWriteRamSelect v).reply _
  | ramWrite a v => exact (h.bsWriteRam a v).reply _

/-- Settles O58: a step does nothing or has one of the effects of an operation, and each keeps the invariants. -/
theorem stepKeepsTheInvariants : Obligations.StepKeepsTheInvariants := by
  intro s t h hstep
  obtain ⟨-, ⟨-, rfl⟩ | ⟨q, rest, -, heffect⟩⟩ := step_next hstep
  · exact h
  · exact heffect.keeps_inv (h.accept q rest)

/-! ### The decoder gives well-formed operations only -/

/-- An address that is none of the router's three exact ones. -/
theorem exactAddress_eq_false {p : Params} {a : Addr} (hkm : a ≠ p.keymatrixAddr) (hif : a ≠ 0xFF0F)
    (hie : a ≠ 0xFFFF) : exactAddress p a = false := by
  simp only [exactAddress, Bool.or_eq_false_iff, beq_eq_false_iff_ne]
  exact ⟨⟨hkm, hif⟩, hie⟩

theorem wellFormed_decodeBusRead (p : Params) (a : Addr) : (decodeBusRead p a).wellFormed p = true := by
  rcases decodeBusRead_cases p a with ⟨-, h⟩ | ⟨-, -, h⟩ | ⟨-, -, h⟩ | ⟨hkm, hif, hie, hrange⟩
  · rw [h]; rfl
  · rw [h]; rfl
  · rw [h]; rfl
  · have hexact := exactAddress_eq_false hkm hif hie
    rcases hrange with ⟨ha, h⟩ | ⟨ha, h⟩ | ⟨ha, h⟩ | ⟨ha, h⟩ <;> rw [h] <;>
      simpa [Instr.wellFormed, hexact] using ha

theorem wellFormed_decodeBusWrite (p : Params) (a : Addr) (v : Byte) :
    (decodeBusWrite p a v).wellFormed p = true := by
  rcases decodeBusWrite_cases p a v with ⟨-, h⟩ | ⟨-, -, h⟩ | ⟨-, -, h⟩ | ⟨hkm, hif, hie, hrange⟩
  · rw [h]; rfl
  · rw [h]; rfl
  · rw [h]; rfl
  · have hexact := exactAddress_eq_false hkm hif hie
    rcases hrange with ⟨ha, h⟩ | ⟨ha, h⟩ | ⟨ha, h⟩ | ⟨ha, h⟩ <;> rw [h] <;>
      simpa [Instr.wellFormed, hexact] using ha

theorem wellFormed_of_pressedKey {i : Instr} {k : Key} (p : Params) (h : i.pressedKey = some k) :
    i.wellFormed p = true := by
  unfold Instr.pressedKey at h
  split at h
  case h_9 => cases h
  all_goals rfl

theorem wellFormed_decodeKey (p : Params) (c : BitVec 4) : (decodeKey c).wellFormed p = true := by
  rcases decodeKey_cases c with ⟨k, hk, -⟩ | ⟨hc, h⟩
  · exact wellFormed_of_pressedKey p hk
  · rw [h]
    exact beq_iff_eq.2 hc

theorem wellFormed_decodeCartRead (p : Params) (a : Addr) : (decodeCartRead p a).wellFormed p = true := by
  cases hv : p.variant with
  | noBanking =>
    rcases decodeCartRead_noBanking hv a with ⟨ha, h⟩ | ⟨ha, h⟩ <;> rw [h] <;>
      simpa [Instr.wellFormed, hv] using ha
  | bankSwitching =>
    rcases decodeCartRead_bankSwitching hv a with ⟨ha, h⟩ | ⟨ha, h⟩ | ⟨ha, h⟩ | ⟨ha, h⟩ | ⟨ha, h⟩ <;> rw [h] <;>
      simpa [Instr.wellFormed, hv] using ha

theorem wellFormed_decodeCartWrite (p : Params) (a : Addr) (v : Byte) :
    (decodeCartWrite p a v).wellFormed p = true := by
  cases hv : p.variant with
  | noBanking => simp [decodeCartWrite, Instr.wellFormed, hv]
  | bankSwitching =>
    rcases decodeCartWrite_bankSwitching hv a v with
      ⟨ha, h⟩ | ⟨ha, h⟩ | ⟨ha, h⟩ | ⟨ha, h⟩ | ⟨ha, h⟩ | ⟨ha, h⟩ | ⟨ha, h⟩ <;> rw [h] <;>
      simpa [Instr.wellFormed, hv] using ha

/-- Every word decodes to an operation the table has a row for, under any parameters (30_encoding.md R94 to R98). -/
theorem wellFormed_decode (p : Params) (w : TWord) : (decode p w).wellFormed p = true := by
  unfold decode
  split
  case h_1 => exact wellFormed_decodeBusRead p _
  case h_2 => exact wellFormed_decodeBusWrite p _ _
  case h_3 => exact wellFormed_decodeKey p _
  case h_11 => exact wellFormed_decodeCartRead p _
  case h_12 => exact wellFormed_decodeCartWrite p _ _
  all_goals rfl

/-! ### Reads of a sound state stay in bounds -/

theorem readImage_ne_noImageByte {s : State} {o : Nat} (h : o < s.params.imageSize) (o' : Nat) :
    readImage s o ≠ .noImageByte o' := by
  simp [readImage_byte h]

/-- The lower 32 KiB are the NoBanking image (40_cartridge_nobanking.md R121). -/
theorem lt_imageSize_noBanking {p : Params} (hv : p.variant = .noBanking) {a : Addr} (ha : a.toNat ≤ 0x7FFF) :
    a.toNat < p.imageSize := by
  rw [imageSize_noBanking hv]
  omega

/-- The lower 16 KiB are bank 0 of the BankSwitching image (41_cartridge_bankswitching.md R141). -/
theorem State.Inv.lt_imageSize_bank0 {s : State} (h : s.Inv) (hv : s.params.variant = .bankSwitching) {a : Addr}
    (ha : a.toNat ≤ 0x3FFF) : a.toNat < s.params.imageSize := by
  have := h.romSelLow hv
  have := h.romSelHigh hv
  rw [imageSize_bankSwitching hv]
  omega

/-- The window shows a bank the image holds (41_cartridge_bankswitching.md R142). -/
theorem State.Inv.windowImageOffset_lt_imageSize {s : State} (h : s.Inv) (hv : s.params.variant = .bankSwitching)
    (a : Addr) : windowImageOffset s.romSel a < s.params.imageSize := by
  have := h.romSelLow hv
  have := h.romSelHigh hv
  rw [imageSize_bankSwitching hv]
  exact windowImageOffset_lt s.romSel a s.params.banks (by omega)

theorem bsReadRam_ne_noImageByte (s : State) (a : Addr) (o : Nat) : bsReadRam s a ≠ .noImageByte o := by
  unfold bsReadRam
  split <;> simp

theorem unclaimedRead_ne_noImageByte (s : State) (a : Addr) (o : Nat) : unclaimedRead s a ≠ .noImageByte o := by
  rcases unclaimedRead_cases s a with ⟨-, h⟩ | ⟨-, h⟩ <;> simp [h]

/-- No cartridge read of a sound state leaves the image (10_state.md R23 (a)). -/
theorem State.Inv.cartRead_ne_noImageByte {s : State} (h : s.Inv) (a : Addr) (o : Nat) :
    cartRead s a ≠ .noImageByte o := by
  unfold cartRead
  cases hv : s.params.variant with
  | noBanking =>
    simp only
    split
    · rename_i hlow
      rw [getLsbD_15, decide_eq_false_iff_not] at hlow
      exact readImage_ne_noImageByte (lt_imageSize_noBanking hv (by omega)) o
    · simp [nbReadFatal]
  | bankSwitching =>
    simp only
    split
    · rename_i hbank0
      exact readImage_ne_noImageByte (h.lt_imageSize_bank0 hv hbank0) o
    · split
      · exact readImage_ne_noImageByte (h.windowImageOffset_lt_imageSize hv a) o
      · split
        · exact bsReadRam_ne_noImageByte s a o
        · simp [bsReadOpen]

/-! ### A sound running block goes on -/

/-- A read of a running block goes on unless the image holds no byte. -/
theorem read_goes_on {s : State} (hf : s.fault = none) {r : ReadResult} (hr : ∀ o, r ≠ .noImageByte o) :
    ∃ t, whileRunning s (finishRead s r) = .next t := by
  rw [whileRunning_running _ _ hf]
  cases r with
  | byte b => exact ⟨_, rfl⟩
  | external a b => exact ⟨_, rfl⟩
  | fatal reason a => exact ⟨_, rfl⟩
  | noImageByte o => exact absurd rfl (hr o)

/-- Every well-formed operation goes on from a sound running state: the reads by their bounds, the others always. -/
theorem State.Inv.exec_goes_on {s : State} (h : s.Inv) (hf : s.fault = none) {i : Instr}
    (hi : i.wellFormed s.params = true) : ∃ t, exec i s = .next t := by
  cases i
  case busrdCartRom a | busrdCartRam a => exact read_goes_on hf (h.cartRead_ne_noImageByte a)
  case busrdUnclaimedLo a | busrdUnclaimedHi a => exact read_goes_on hf (unclaimedRead_ne_noImageByte s a)
  case cartrdNbRom a =>
    obtain ⟨hv, ha⟩ : s.params.variant = .noBanking ∧ a &&& 0x8000 = 0x0000 := by
      simpa [Instr.wellFormed] using hi
    exact read_goes_on hf (readImage_ne_noImageByte (lt_imageSize_noBanking hv ((range_8000_0000 a).1 ha)))
  case cartrdBsBank0 a =>
    obtain ⟨hv, ha⟩ : s.params.variant = .bankSwitching ∧ a &&& 0xC000 = 0x0000 := by
      simpa [Instr.wellFormed] using hi
    exact read_goes_on hf (readImage_ne_noImageByte (h.lt_imageSize_bank0 hv ((range_C000_0000 a).1 ha)))
  case cartrdBsWindow a =>
    obtain ⟨hv, -⟩ : s.params.variant = .bankSwitching ∧ a &&& 0xC000 = 0x4000 := by
      simpa [Instr.wellFormed] using hi
    exact read_goes_on hf (readImage_ne_noImageByte (h.windowImageOffset_lt_imageSize hv a))
  case cartrdBsRam a => exact read_goes_on hf (bsReadRam_ne_noImageByte s a)
  all_goals exact ⟨_, whileRunning_running s _ hf⟩

/-- Every step of a sound running block goes on. -/
theorem State.Inv.step_goes_on {s : State} (h : s.Inv) (hf : s.fault = none) : ∃ t, step s = .next t := by
  rw [step, whileRunning_running _ _ hf]
  cases s.inbox with
  | nil => exact ⟨s, rfl⟩
  | cons q rest => exact (h.accept q rest).exec_goes_on hf (wellFormed_decode s.params q.word)

/-- The fatal error is NoBanking's: no other well-formed operation touches `fault` (60_exceptions.md R271). -/
theorem Effect.fault_of_bankSwitching {s t : State} {i : Instr} (e : Effect s i t)
    (hi : i.wellFormed s.params = true) (hv : s.params.variant = .bankSwitching) : t.fault = s.fault := by
  cases e with
  | fatalCart a => simp [Instr.wellFormed, hv] at hi
  | fatalBus _ a _ hnb => exact absurd (hv.symm.trans hnb) (by decide)
  | busCart _ a v =>
    obtain ⟨-, -, -, -, -, -, -, hfault, -⟩ := cartWrite_frame a v s
    exact hfault
  | press _ k => rw [pressKey_eq]; rfl
  | saves => rcases saveRam_cases s with ⟨r, heq⟩ | ⟨-, -, -, heq⟩ <;> rw [heq] <;> rfl
  | loads => rcases loadRam_cases s with ⟨r, heq⟩ | ⟨-, -, -, m, -, heq⟩ <;> rw [heq] <;> rfl
  | ramEnable a v => rcases bsWriteRamEnable_cases v s with ⟨-, heq⟩ | ⟨-, heq⟩ <;> rw [heq] <;> rfl
  | ramWrite a v => rcases bsWriteRam_cases a v s with ⟨-, heq⟩ | ⟨-, heq⟩ <;> rw [heq] <;> rfl
  | answers | external | column | writesIf | writesIe | unknownKey | releases | requests | clears | romSelect
  | ramSelect => rfl

/-- Settles O59: the step goes on because the decoded operation is well-formed and the state sound; on BankSwitching
its effect leaves `fault` as it was. -/
theorem soundBlockNeverStops : Obligations.SoundBlockNeverStops := by
  intro s h hf
  obtain ⟨t, hstep⟩ := h.step_goes_on hf
  refine ⟨t, hstep, fun hv => ?_⟩
  obtain ⟨-, ⟨-, rfl⟩ | ⟨q, rest, -, heffect⟩⟩ := step_next hstep
  · exact hf
  · exact (heffect.fault_of_bankSwitching (wellFormed_decode s.params q.word) hv).trans hf

end Sys2Proof.Machine
end

section
/-! PROOFS. The family of 20_memory.md: what a step performs (R67, R69, R70), that an operation done again changes
nothing (R65), and that no device changes another's state (R77). -/

namespace Sys2Proof.Machine

/-! ### The step -/

/-- With no word waiting a running block's step leaves the state as it is. -/
theorem step_of_inbox_nil {s : State} (hf : s.fault = none) (hq : s.inbox = []) : step s = .next s := by
  rw [step, whileRunning_running _ _ hf, hq]

/-- With a word waiting a running block's step performs it. -/
theorem step_of_inbox_cons {s : State} {r : Request} {rest : List Request} (hf : s.fault = none)
    (hq : s.inbox = r :: rest) : step s = exec (decode s.params r.word) (s.accept r rest) := by
  rw [step, whileRunning_running _ _ hf, hq]

/-- A number the decoder admits is read as the word of its low 28 bits. -/
theorem decode_of_decodeNat {p : Params} {n : Nat} {i : Instr} (h : decodeNat p n = .ok i) :
    decode p (BitVec.ofNat 28 n) = i := by
  unfold decodeNat at h
  split at h
  · exact Except.ok.inj h
  · cases h

/-- The step after `withFetchWord` performs its word, at the state without it. -/
theorem step_withFetchWord {s : State} (hf : s.fault = none) (n w : Nat) :
    step (s.withFetchWord n w) = exec (decode s.params (BitVec.ofNat 28 w)) s := by
  have hrun : (s.withFetchWord n w).fault = none := hf
  have hq : (s.withFetchWord n w).inbox = ⟨BitVec.ofNat 28 w, s.draws⟩ :: s.inbox := rfl
  have htaken : (s.withFetchWord n w).accept ⟨BitVec.ofNat 28 w, s.draws⟩ s.inbox = s := by
    rw [State.withFetchWord, State.accept]
  rw [step_of_inbox_cons hrun hq, htaken, State.withFetchWord]

/-- Settles O7: the step takes the oldest word; the word of `withFetchWord` is that word. -/
theorem stepPerformsTheOldestWord : Obligations.StepPerformsTheOldestWord := by
  refine ⟨?_, ?_⟩
  · intro s r rest i hf hq hi
    rw [step_of_inbox_cons hf hq, hi]
    rfl
  · intro s n w i hf hi
    rw [step_withFetchWord hf, decode_of_decodeNat hi]

/-- Settles O8: the step on an empty inbox. -/
theorem blockOriginatesNothing : Obligations.BlockOriginatesNothing :=
  fun _ hf hq => step_of_inbox_nil hf hq

/-! ### Each update, done again, changes nothing

`out` is no input of any update, so the answer given in between does not matter. -/

@[simp] theorem reply_reply (s : State) (r r' : Response) : (s.reply r).reply r' = s.reply r' := rfl

/-- Storing twice at a key is the second store. -/
theorem Memory.write_write_same (m : Memory) (h : m.wf = true) (k : Nat) (v v' : Byte) :
    (m.write k v).write k v' = m.write k v' := by
  have hwf := Memory.wf_write m h k v
  refine Memory.eq_of_read_eq _ _ (Memory.wf_write _ hwf k v') (Memory.wf_write m h k v') fun j => ?_
  rw [Memory.read_write _ hwf, Memory.read_write m h, Memory.read_write m h]
  split <;> rfl

/-- Under either policy the same select chooses the same bank again (41_cartridge_bankswitching.md R146 to R148). -/
theorem selectedRomBank_again (policy : RomOor) (n : Nat) (v : Byte) (old : BitVec 7) :
    selectedRomBank policy n v (selectedRomBank policy n v old) = selectedRomBank policy n v old := by
  unfold selectedRomBank
  by_cases hb : 1 ≤ (romBankField v).toNat ∧ (romBankField v).toNat ≤ n - 1
  · simp only [if_pos hb]
  · cases policy <;> simp only [if_neg hb, outOfRangeBank]

/-- Clearing a bit of a row twice is clearing it once. -/
theorem clearRowBit_again (row : BitVec 4) (i : Fin 4) : clearRowBit (clearRowBit row i) i = clearRowBit row i := by
  rw [clearRowBit, clearRowBit, BitVec.and_assoc, BitVec.and_self]

/-- Setting requests that are set changes no request register. -/
theorem or_mask_again (x m : Byte) : (x ||| m) ||| m = x ||| m := by rw [BitVec.or_assoc, BitVec.or_self]

theorem requestInterrupt_again (m : Byte) (s : State) :
    requestInterrupt m ((requestInterrupt m s).reply .nothing) = (requestInterrupt m s).reply .nothing := by
  simp [requestInterrupt, State.reply, or_mask_again]

theorem clearInterrupts_again (m : Byte) (s : State) :
    clearInterrupts m ((clearInterrupts m s).reply .nothing) = (clearInterrupts m s).reply .nothing := by
  have hand : (s.ifReg &&& ~~~m) &&& ~~~m = s.ifReg &&& ~~~m := by rw [BitVec.and_assoc, BitVec.and_self]
  simp [clearInterrupts, State.reply, hand]

/-- A key that is down stays down, and its request stays set (44_keymatrix.md R207). -/
theorem pressKey_again (k : Key) (s : State) :
    pressKey k ((pressKey k s).reply .nothing) = (pressKey k s).reply .nothing := by
  by_cases hrow : (s.params.keymap.pos k).row = 0 <;>
    simp [pressKey, clearKeyBit, requestInterrupt, State.reply, hrow, or_mask_again, clearRowBit_again]

theorem bsWriteRamEnable_again (v : Byte) (s : State) :
    bsWriteRamEnable v ((bsWriteRamEnable v s).reply .nothing) = (bsWriteRamEnable v s).reply .nothing := by
  cases h : s.params.hasRam <;> simp [bsWriteRamEnable, State.reply, h]

theorem bsWriteRomSelect_again (v : Byte) (s : State) :
    bsWriteRomSelect v ((bsWriteRomSelect v s).reply .nothing) = (bsWriteRomSelect v s).reply .nothing := by
  simp [bsWriteRomSelect, State.reply, selectedRomBank_again]

theorem bsWriteRam_again (a : Addr) (v : Byte) {s : State} (hwf : s.ram.wf = true) :
    bsWriteRam a v ((bsWriteRam a v s).reply .nothing) = (bsWriteRam a v s).reply .nothing := by
  have hwrite := Memory.write_write_same s.ram hwf (ramKey s.ramSel (ramOffset a)) v v
  cases hopen : s.params.hasRam && s.ramEn <;> simp [bsWriteRam, State.ramOpen, State.reply, hopen, hwrite]

/-- Which write a cartridge write is follows from the parameters, the address and the datum alone. -/
theorem cartWrite_eq_of_params (p : Params) (a : Addr) (v : Byte) :
    (∀ s : State, s.params = p → cartWrite a v s = s) ∨
    (∀ s : State, s.params = p → cartWrite a v s = bsWriteRamEnable v s) ∨
    (∀ s : State, s.params = p → cartWrite a v s = bsWriteRomSelect v s) ∨
    (∀ s : State, s.params = p → cartWrite a v s = bsWriteRamSelect v s) ∨
    (∀ s : State, s.params = p → cartWrite a v s = bsWriteRam a v s) := by
  cases hv : p.variant with
  | noBanking => exact .inl fun s hs => cartWrite_noBanking (hs ▸ hv) a v
  | bankSwitching =>
    by_cases h1 : a ≤ 0x1FFF#16
    · exact .inr (.inl fun s hs => by simp only [cartWrite, hs, hv, if_pos h1])
    by_cases h2 : a ≤ 0x3FFF#16
    · exact .inr (.inr (.inl fun s hs => by simp only [cartWrite, hs, hv, if_neg h1, if_pos h2]))
    by_cases h3 : a ≤ 0x5FFF#16
    · exact .inr (.inr (.inr (.inl fun s hs => by simp only [cartWrite, hs, hv, if_neg h1, if_neg h2, if_pos h3])))
    by_cases h4 : a ≤ 0x7FFF#16
    · exact .inl fun s hs => by
        simp only [cartWrite, hs, hv, if_neg h1, if_neg h2, if_neg h3, if_pos h4, bsWriteNone]
    by_cases h5 : inRamWindow a = true
    · exact .inr (.inr (.inr (.inr fun s hs => by
        simp only [cartWrite, hs, hv, if_neg h1, if_neg h2, if_neg h3, if_neg h4, if_pos h5])))
    · exact .inl fun s hs => by
        simp only [cartWrite, hs, hv, if_neg h1, if_neg h2, if_neg h3, if_neg h4, if_neg h5, bsWriteNone]

theorem cartWrite_again (a : Addr) (v : Byte) {s : State} (hwf : s.ram.wf = true) :
    cartWrite a v ((cartWrite a v s).reply .nothing) = (cartWrite a v s).reply .nothing := by
  have hparams : ((cartWrite a v s).reply .nothing).params = s.params := (cartWrite_frame a v s).1
  rcases cartWrite_eq_of_params s.params a v with h | h | h | h | h <;> rw [h _ hparams, h s rfl]
  · exact bsWriteRamEnable_again v s
  · exact bsWriteRomSelect_again v s
  · rfl
  · exact bsWriteRam_again a v hwf

theorem unclaimedWrite_again (a : Addr) (v : Byte) (s : State) :
    unclaimedWrite a v (unclaimedWrite a v s) = unclaimedWrite a v s := by
  by_cases h : a ∈ s.params.extMap <;> simp [unclaimedWrite, State.reply, State.replyExternal, h]

/-- `SAVE` leaves RAM and the draw as they are, so it stores the same record again (42_persistence.md R172). -/
theorem saveRam_again (s : State) : saveRam (saveRam s) = saveRam s := by
  cases hv : s.params.variant with
  | noBanking => simp [saveRam, State.reply, hv]
  | bankSwitching =>
    cases hkept : s.params.hasRam && s.params.hasBattery <;> cases hfails : s.draws.saveFails <;>
      simp [saveRam, State.reply, hv, hkept, hfails]

/-- `LOAD` leaves the store and the draw as they are, so it reads the same record again (42_persistence.md R174). -/
theorem loadRam_again (s : State) : loadRam (loadRam s) = loadRam s := by
  cases hv : s.params.variant with
  | noBanking => simp [loadRam, State.reply, hv]
  | bankSwitching =>
    cases hkept : s.params.hasRam && s.params.hasBattery <;> cases hstore : s.store <;>
      cases hfails : s.draws.loadFails <;> simp [loadRam, State.reply, hv, hkept, hstore, hfails]

/-! ### Each operation, done again, changes nothing -/

section

variable {s t : State}

/-- A read that goes on without the fatal error changes `out` alone; coming to the same, it goes on the same. -/
theorem read_again {r : ReadResult} (h : whileRunning s (finishRead s r) = .next t) (hf : t.fault = none) :
    ∃ o, t = { s with out := o } ∧ whileRunning t (finishRead t r) = .next t := by
  obtain ⟨-, hread⟩ := (whileRunning_next _ _ _).1 h
  rw [whileRunning_running _ _ hf]
  rcases finishRead_next hread with ⟨b, rfl, rfl⟩ | ⟨a, b, rfl, rfl⟩ | ⟨reason, a, -, rfl⟩
  · exact ⟨_, rfl, rfl⟩
  · exact ⟨_, rfl, rfl⟩
  · cases hf

/-- An update that changes nothing the second time, answer included. -/
theorem update_again {update : State → State} (h : whileRunning s (.next (update s)) = .next t)
    (hf : t.fault = none) (hupdate : update (update s) = update s) :
    whileRunning t (.next (update t)) = .next t := by
  obtain ⟨-, ht⟩ := (whileRunning_next _ _ _).1 h
  cases ht
  rw [whileRunning_running _ _ hf, hupdate]

/-- A write that changes nothing the second time, its answer given in between. -/
theorem write_again {write : State → State} (h : whileRunning s (finish (write s)) = .next t) (hf : t.fault = none)
    (hwrite : write ((write s).reply .nothing) = (write s).reply .nothing) :
    whileRunning t (finish (write t)) = .next t :=
  update_again (update := fun s => (write s).reply .nothing) h hf (by rw [hwrite, reply_reply])

end

/-- Settles O53: the operations are reads, writes and updates, and each of these, done again, changes nothing. -/
theorem operationsAreIdempotent : Obligations.OperationsAreIdempotent := by
  intro i s t hwf h hf
  cases i
  case busrdKm | busrdIf | busrdIe | busrdCartRom | busrdCartRam | busrdUnclaimedLo | busrdUnclaimedHi | ifrd |
      cartrdNbRom | cartrdNbFatal | cartrdBsBank0 | cartrdBsWindow | cartrdBsRam | cartrdBsOpenLo | cartrdBsOpenHi |
      kmrd =>
    obtain ⟨o, rfl, hagain⟩ := read_again h hf
    exact hagain
  case buswrKm | buswrIf | buswrIe | kmwr | tick | reset | cartwrNb | cartwrBsRamsel | cartwrBsNone6 |
      cartwrBsNoneLo | cartwrBsNoneHi => exact write_again h hf rfl
  case buswrCartRom a v | buswrCartRam a v => exact write_again h hf (cartWrite_again a v hwf)
  case buswrUnclaimedLo a v | buswrUnclaimedHi a v => exact update_again h hf (unclaimedWrite_again a v s)
  case keyUp | keyDown | keyLeft | keyRight | keyA | keyB | keyStart | keySelect =>
    exact write_again h hf (pressKey_again _ s)
  case keyUnrecognized => exact write_again h hf (requestInterrupt_again maskJoypad s)
  case save => exact update_again h hf (saveRam_again s)
  case load => exact update_again h hf (loadRam_again s)
  case irqreq m => exact write_again h hf (requestInterrupt_again m s)
  case ifclr m => exact write_again h hf (clearInterrupts_again m s)
  case cartwrBsRamen _ v => exact write_again h hf (bsWriteRamEnable_again v s)
  case cartwrBsRomsel _ v => exact write_again h hf (bsWriteRomSelect_again v s)
  case cartwrBsRam a v => exact write_again h hf (bsWriteRam_again a v hwf)
  case invalid => exact update_again h hf rfl

/-! ### No device changes another's state -/

theorem portOf_of_pressedKey {i : Instr} {k : Key} (h : i.pressedKey = some k) : portOf i = some .key := by
  unfold Instr.pressedKey at h
  split at h
  case h_9 => cases h
  all_goals rfl

theorem portOf_of_releasesKeys {i : Instr} (h : releasesKeys i = true) :
    portOf i = some .tick ∨ portOf i = some .reset := by
  unfold releasesKeys at h
  split at h
  · exact .inl rfl
  · exact .inr rfl
  · cases h

namespace Effect

variable {s t : State} {i : Instr}

/-- The cartridge port reaches no KeyMatrix, interrupt or store state. -/
theorem frame_of_cart_port (e : Effect s i t) (hp : portOf i = some .cart) :
    t.colSel = s.colSel ∧ t.row0 = s.row0 ∧ t.row1 = s.row1 ∧ t.ifReg = s.ifReg ∧ t.ieReg = s.ieReg ∧
    t.store = s.store := by
  cases e with
  | answers | external | fatalCart | fatalBus | romSelect | ramSelect => exact ⟨rfl, rfl, rfl, rfl, rfl, rfl⟩
  | busCart _ a v =>
    obtain ⟨-, hcol, hrow0, hrow1, hif, hie, hstore, -⟩ := cartWrite_frame a v s
    exact ⟨hcol, hrow0, hrow1, hif, hie, hstore⟩
  | ramEnable a v =>
    rcases bsWriteRamEnable_cases v s with ⟨-, heq⟩ | ⟨-, heq⟩ <;> rw [heq] <;> exact ⟨rfl, rfl, rfl, rfl, rfl, rfl⟩
  | ramWrite a v =>
    rcases bsWriteRam_cases a v s with ⟨-, heq⟩ | ⟨-, heq⟩ <;> rw [heq] <;> exact ⟨rfl, rfl, rfl, rfl, rfl, rfl⟩
  | column _ v hi => rcases hi with rfl | ⟨a, rfl⟩ <;> cases hp
  | press _ k hi => rw [portOf_of_pressedKey hi] at hp; cases hp
  | releases _ hi => rcases portOf_of_releasesKeys hi with h | h <;> rw [h] at hp <;> cases hp
  | writesIf | writesIe | unknownKey | saves | loads | requests | clears => cases hp

/-- The key, tick, reset and KeyMatrix ports reach no cartridge or store state, nor `IE`. -/
theorem frame_of_keyMatrix_port (e : Effect s i t)
    (hp : portOf i = some .key ∨ portOf i = some .tick ∨ portOf i = some .reset ∨ portOf i = some .km) :
    t.romSel = s.romSel ∧ t.ramSel = s.ramSel ∧ t.ramEn = s.ramEn ∧ t.ram = s.ram ∧ t.ieReg = s.ieReg ∧
    t.store = s.store ∧ t.fault = s.fault := by
  cases e with
  | answers | external | column | writesIf | unknownKey | releases | requests | clears =>
    exact ⟨rfl, rfl, rfl, rfl, rfl, rfl, rfl⟩
  | press _ k => rw [pressKey_eq]; exact ⟨rfl, rfl, rfl, rfl, rfl, rfl, rfl⟩
  | fatalBus _ a hi | busCart _ a v hi => rcases hi with rfl | rfl <;> simp [portOf] at hp
  | fatalCart | writesIe | saves | loads | ramEnable | romSelect | ramSelect | ramWrite => simp [portOf] at hp

/-- A request or a clear changes `IF` alone. -/
theorem frame_of_interrupt_port (e : Effect s i t) (hp : portOf i = some .sink ∨ portOf i = some .intctl) :
    t = { s with ifReg := t.ifReg, out := t.out } := by
  cases e with
  | answers | external | writesIf | unknownKey | requests | clears => rfl
  | column _ v hi => rcases hi with rfl | ⟨a, rfl⟩ <;> simp [portOf] at hp
  | fatalBus _ a hi | busCart _ a v hi => rcases hi with rfl | rfl <;> simp [portOf] at hp
  | press _ k hi => simp [portOf_of_pressedKey hi] at hp
  | releases _ hi => rcases portOf_of_releasesKeys hi with h | h <;> simp [h] at hp
  | fatalCart | writesIe | saves | loads | ramEnable | romSelect | ramSelect | ramWrite => simp [portOf] at hp

end Effect

/-- Settles O52: the frame of each port, over every effect an operation can have. -/
theorem devicesKeepToTheirOwnState : Obligations.DevicesKeepToTheirOwnState := by
  intro i s t h
  obtain ⟨-, e⟩ := exec_next h
  exact ⟨e.frame_of_cart_port, e.frame_of_keyMatrix_port, e.frame_of_interrupt_port⟩

end Sys2Proof.Machine
end

section
/-! PROOFS. The family of 30_encoding.md: the verdict INVALID (R108), and the one row of the opcode table that a word
selects (R102). -/

namespace Sys2Proof.Machine

/-! ### A word that is no operation -/

/-- Settles O46: the verdict is all that is put out. -/
theorem invalidWordChangesNothing : Obligations.InvalidWordChangesNothing :=
  fun s _ hf => whileRunning_running s _ hf

/-! ### The decoder keeps the kind -/

theorem kind_decodeBusRead (p : Params) (a : Addr) : (decodeBusRead p a).kind = 0x0 := by
  rcases decodeBusRead_cases p a with ⟨-, h⟩ | ⟨-, -, h⟩ | ⟨-, -, h⟩ |
    ⟨-, -, -, ⟨-, h⟩ | ⟨-, h⟩ | ⟨-, h⟩ | ⟨-, h⟩⟩ <;> rw [h] <;> rfl

theorem kind_decodeBusWrite (p : Params) (a : Addr) (v : Byte) : (decodeBusWrite p a v).kind = 0x1 := by
  rcases decodeBusWrite_cases p a v with ⟨-, h⟩ | ⟨-, -, h⟩ | ⟨-, -, h⟩ |
    ⟨-, -, -, ⟨-, h⟩ | ⟨-, h⟩ | ⟨-, h⟩ | ⟨-, h⟩⟩ <;> rw [h] <;> rfl

theorem kind_decodeKey (c : BitVec 4) : (decodeKey c).kind = 0x2 := by
  revert c
  decide

theorem kind_decodeCartRead (p : Params) (a : Addr) : (decodeCartRead p a).kind = 0xA := by
  cases hv : p.variant with
  | noBanking => rcases decodeCartRead_noBanking hv a with ⟨-, h⟩ | ⟨-, h⟩ <;> rw [h] <;> rfl
  | bankSwitching =>
    rcases decodeCartRead_bankSwitching hv a with ⟨-, h⟩ | ⟨-, h⟩ | ⟨-, h⟩ | ⟨-, h⟩ | ⟨-, h⟩ <;> rw [h] <;> rfl

theorem decodeCartWrite_noBanking {p : Params} (hv : p.variant = .noBanking) (a : Addr) (v : Byte) :
    decodeCartWrite p a v = .cartwrNb a v := by
  rw [decodeCartWrite, hv]

theorem kind_decodeCartWrite (p : Params) (a : Addr) (v : Byte) : (decodeCartWrite p a v).kind = 0xB := by
  cases hv : p.variant with
  | noBanking => rw [decodeCartWrite_noBanking hv]; rfl
  | bankSwitching =>
    rcases decodeCartWrite_bankSwitching hv a v with
      ⟨-, h⟩ | ⟨-, h⟩ | ⟨-, h⟩ | ⟨-, h⟩ | ⟨-, h⟩ | ⟨-, h⟩ | ⟨-, h⟩ <;> rw [h] <;> rfl

/-- The operation a word decodes to is of the word's kind (30_encoding.md R92). -/
theorem kind_decode (p : Params) (w : TWord) : (decode p w).kind = kindOf w := by
  rw [← word_fields w, kindOf_word, decode_word]
  obtain h | h | h | h | h | h | h | h | h | h | h | h | h | h | h | h := kind_cases (kindOf w) <;> rw [h]
  · exact kind_decodeBusRead p _
  · exact kind_decodeBusWrite p _ _
  · exact kind_decodeKey _
  iterate 7 rfl
  · exact kind_decodeCartRead p _
  · exact kind_decodeCartWrite p _ _
  all_goals rfl

theorem kind_invalid (k : BitVec 1) : (Instr.invalid k).kind = 0xE ∨ (Instr.invalid k).kind = 0xF := by
  revert k
  decide

/-- Settles O6: the decoder keeps the kind, and `INVALID` alone is of kind `0xE` or `0xF`. -/
theorem invalidIsKindEOrF : Obligations.InvalidIsKindEOrF := by
  intro p w
  constructor
  · rintro ⟨k, hk⟩
    rw [← kind_decode p w, hk]
    exact kind_invalid k
  · rw [← word_fields w, decode_word, kindOf_word]
    rintro (h | h) <;> rw [h] <;> exact ⟨_, rfl⟩

/-! ### The octant of an address

Every address range of the table is a union of octants, so the octant of an address says which rows it matches. -/

theorem octant_cases (a : Addr) : a &&& 0xE000#16 = 0x0000#16 ∨ a &&& 0xE000#16 = 0x2000#16 ∨
    a &&& 0xE000#16 = 0x4000#16 ∨ a &&& 0xE000#16 = 0x6000#16 ∨ a &&& 0xE000#16 = 0x8000#16 ∨
    a &&& 0xE000#16 = 0xA000#16 ∨ a &&& 0xE000#16 = 0xC000#16 ∨ a &&& 0xE000#16 = 0xE000#16 := by
  have h : (a &&& 0xE000#16).toNat = a.toNat / 0x2000 * 0x2000 := toNat_and_E000 a
  simp only [← BitVec.toNat_inj, h, BitVec.toNat_ofNat]
  have := a.isLt
  omega

theorem and_C000_of_octant (a : Addr) : a &&& 0xC000#16 = (a &&& 0xE000#16) &&& 0xC000#16 := by
  rw [BitVec.and_assoc]
  rfl

theorem and_8000_of_octant (a : Addr) : a &&& 0x8000#16 = (a &&& 0xE000#16) &&& 0x8000#16 := by
  rw [BitVec.and_assoc]
  rfl

/-- The octants the router does not send to the cartridge (30_encoding.md R97). -/
theorem octant_of_not_inCartridgeRange {a : Addr} (h : inCartridgeRange a = false) :
    a &&& 0xE000#16 = 0x8000#16 ∨ a &&& 0xE000#16 = 0xC000#16 ∨ a &&& 0xE000#16 = 0xE000#16 := by
  have hlo : a &&& 0x8000#16 ≠ 0x0000#16 := fun ha => by simp [inCartridgeRange, ha] at h
  have hram : a &&& 0xE000#16 ≠ 0xA000#16 := fun ha => by simp [inCartridgeRange, ha] at h
  rw [and_8000_of_octant] at hlo
  rcases octant_cases a with ha | ha | ha | ha | ha | ha | ha | ha <;> simp [ha] at hlo hram ⊢

/-! ### Each kind matches rows of its own part of the table -/

theorem kind_of_mem_routerRows {p : Params} {r : OpcodeRow} (hr : r ∈ routerRows p) :
    kindOf r.mask = 0xF ∧ (kindOf r.pattern = 0x0 ∨ kindOf r.pattern = 0x1) := by
  revert r
  simp [routerRows]

section
variable (p : Params) {k : BitVec 4} (a : Addr) (d : Byte)

theorem filter_routerRows_of_kind (hk : 2 ≤ k.toNat) :
    (routerRows p).filter (OpcodeRow.matchesWord p (word k a d)) = [] := by
  refine filter_matchesWord_of_kind p k a d _ fun r hr => ?_
  obtain ⟨hmask, hpattern | hpattern⟩ := kind_of_mem_routerRows hr
  all_goals
    rw [hmask, hpattern]
    revert k
    decide

theorem filter_eventRows_of_kind (hk : k.toNat < 2 ∨ 10 ≤ k.toNat) :
    eventRows.filter (OpcodeRow.matchesWord p (word k a d)) = [] := by
  refine filter_matchesWord_of_kind p k a d _ ?_
  revert k
  decide

theorem filter_deviceRows_of_kind (hk : k.toNat < 10) :
    deviceRows.filter (OpcodeRow.matchesWord p (word k a d)) = [] := by
  refine filter_matchesWord_of_kind p k a d _ ?_
  revert k
  decide

theorem filter_opcodeRows_of_router_kind (hk : k.toNat < 2) :
    (opcodeRows p).filter (OpcodeRow.matchesWord p (word k a d)) =
      (routerRows p).filter (OpcodeRow.matchesWord p (word k a d)) := by
  rw [opcodeRows, List.filter_append, List.filter_append, filter_eventRows_of_kind p a d (.inl hk),
    filter_deviceRows_of_kind p a d (by omega), List.append_nil, List.append_nil]

theorem filter_opcodeRows_of_event_kind (hlo : 2 ≤ k.toNat) (hhi : k.toNat < 10) :
    (opcodeRows p).filter (OpcodeRow.matchesWord p (word k a d)) =
      eventRows.filter (OpcodeRow.matchesWord p (word k a d)) := by
  rw [opcodeRows, List.filter_append, List.filter_append, filter_routerRows_of_kind p a d hlo,
    filter_deviceRows_of_kind p a d hhi, List.append_nil, List.nil_append]

theorem filter_opcodeRows_of_device_kind (hk : 10 ≤ k.toNat) :
    (opcodeRows p).filter (OpcodeRow.matchesWord p (word k a d)) =
      deviceRows.filter (OpcodeRow.matchesWord p (word k a d)) := by
  rw [opcodeRows, List.filter_append, List.filter_append, filter_routerRows_of_kind p a d (by omega),
    filter_eventRows_of_kind p a d (.inr hk), List.append_nil, List.nil_append]

end

/-! ### The rows of kinds `0x2` and above do not overlap -/

/-- A word that matches one row only selects it. -/
theorem selectedRows_of_one_match {p : Params} {w : TWord} {n : Nat}
    (h : ((opcodeRows p).filter (OpcodeRow.matchesWord p w)).map OpcodeRow.index = [n]) :
    (selectedRows p w).map OpcodeRow.index = [n] := by
  obtain ⟨r, hr, rfl⟩ := List.map_eq_singleton_iff.1 h
  simp [selectedRows, hr]

/-- The bits of a datum a key row tests are those of the key code. -/
theorem and_0F_eq_code (d : Byte) : d &&& 0x0F#8 = (d.extractLsb' 0 4).setWidth 8 := by
  revert d
  decide

theorem and_08_eq_code (d : Byte) : d &&& 0x08#8 = (d.extractLsb' 0 4).setWidth 8 &&& 0x08#8 := by
  rw [← and_0F_eq_code, BitVec.and_assoc]
  rfl

/-- A key code has one row of the nine (30_encoding.md R98). -/
theorem selectedRows_key (p : Params) (a : Addr) (d : Byte) :
    (selectedRows p (word 0x2 a d)).map OpcodeRow.index = [(decodeKey (d.extractLsb' 0 4)).rowIndex] := by
  apply selectedRows_of_one_match
  rw [filter_opcodeRows_of_event_kind p a d (by decide) (by decide)]
  simp only [eventRows, matchesWord_word, filter_cons_append, List.filter_nil, BitVec.ofNat_eq_ofNat, BitVec.and_zero,
    and_0F_eq_code d, and_08_eq_code d, BEq.rfl, Bool.true_or, Bool.and_true]
  generalize d.extractLsb' 0 4 = c
  revert c
  decide

/-- The rows of `CARTRD` that exist for a variant cover the addresses once (30_encoding.md R95, R96). -/
theorem selectedRows_cartRead (p : Params) (a : Addr) (d : Byte) :
    (selectedRows p (word 0xA a d)).map OpcodeRow.index = [(decodeCartRead p a).rowIndex] := by
  apply selectedRows_of_one_match
  rw [filter_opcodeRows_of_device_kind p a d (by decide)]
  cases hv : p.variant with
  | noBanking =>
    rcases decodeCartRead_noBanking hv a with
      ⟨(ha : a &&& 0x8000#16 = 0x0000#16), h⟩ | ⟨(ha : a &&& 0x8000#16 = 0x8000#16), h⟩ <;>
      simp [deviceRows, matchesWord_word, hv, ha, h, Instr.rowIndex]
  | bankSwitching =>
    rcases octant_cases a with ha | ha | ha | ha | ha | ha | ha | ha <;>
      simp [deviceRows, matchesWord_word, hv, decodeCartRead, and_C000_of_octant a, ha, Instr.rowIndex]

/-- The rows of `CARTWR` that exist for a variant cover the addresses once (30_encoding.md R94, R96). -/
theorem selectedRows_cartWrite (p : Params) (a : Addr) (d : Byte) :
    (selectedRows p (word 0xB a d)).map OpcodeRow.index = [(decodeCartWrite p a d).rowIndex] := by
  apply selectedRows_of_one_match
  rw [filter_opcodeRows_of_device_kind p a d (by decide)]
  cases hv : p.variant with
  | noBanking => simp [deviceRows, matchesWord_word, hv, decodeCartWrite_noBanking hv, Instr.rowIndex]
  | bankSwitching =>
    rcases octant_cases a with ha | ha | ha | ha | ha | ha | ha | ha <;>
      simp [deviceRows, matchesWord_word, hv, decodeCartWrite, and_C000_of_octant a, ha, Instr.rowIndex]

/-! ### The router's rows overlap, and the priorities decide (30_encoding.md R97) -/

/-- The rows of `BUSWR` stand seven places after those of `BUSRD`, range by range. -/
theorem rowIndex_decodeBusWrite (p : Params) (a : Addr) (v : Byte) :
    (decodeBusWrite p a v).rowIndex = 7 + (decodeBusRead p a).rowIndex := by
  unfold decodeBusWrite decodeBusRead
  split_ifs <;> rfl

/-- An exact address also matches the row of the range it lies in, which has a later priority; admitted parameters keep
the three exact addresses apart. -/
theorem selectedRows_router {p : Params} (hp : keymatrixAddrOk p.keymatrixAddr = true) {k : BitVec 4}
    (hk : k = 0x0 ∨ k = 0x1) (a : Addr) (d : Byte) :
    (selectedRows p (word k a d)).map OpcodeRow.index = [7 * k.toNat + (decodeBusRead p a).rowIndex] := by
  have hkind : k.toNat < 2 := by rcases hk with rfl | rfl <;> decide
  have hall : a &&& 0xFFFF#16 = a := BitVec.and_allOnes
  rw [selectedRows, filter_opcodeRows_of_router_kind p a d hkind]
  by_cases hkm : a = p.keymatrixAddr
  · simp only [keymatrixAddrOk, ← hkm, Bool.and_eq_true, bne_iff_ne, Bool.not_eq_true', BitVec.ofNat_eq_ofNat] at hp
    obtain ⟨⟨hif, hie⟩, hrange⟩ := hp
    rcases hk with rfl | rfl <;> rcases octant_of_not_inCartridgeRange hrange with ha | ha | ha <;>
      simp [routerRows, matchesWord_word, decodeBusRead, Instr.rowIndex, and_C000_of_octant a,
        and_8000_of_octant a, hall, ← hkm, hif, hie, ha]
  by_cases hif : a = 0xFF0F#16
  · rcases hk with rfl | rfl <;>
      simp [routerRows, matchesWord_word, decodeBusRead, Instr.rowIndex, hif, hif ▸ hkm]
  by_cases hie : a = 0xFFFF#16
  · rcases hk with rfl | rfl <;>
      simp [routerRows, matchesWord_word, decodeBusRead, Instr.rowIndex, hie, hie ▸ hkm]
  rcases hk with rfl | rfl <;> rcases octant_cases a with ha | ha | ha | ha | ha | ha | ha | ha <;>
    simp [routerRows, matchesWord_word, decodeBusRead, Instr.rowIndex, and_C000_of_octant a,
      and_8000_of_octant a, hall, hkm, hif, hie, ha]

/-! ### Every word selects one row -/

theorem keymatrixAddrOk_of_validParams {p : Params} (h : validParams p = true) :
    keymatrixAddrOk p.keymatrixAddr = true := by
  simp only [validParams, Bool.and_eq_true] at h
  obtain ⟨⟨⟨⟨⟨hkm, -⟩, -⟩, -⟩, -⟩, -⟩ := h
  exact hkm

/-- Settles O4: kind by kind, the rows a word matches are those of its kind, and the fields pick one. -/
theorem everyWordSelectsItsOneRow : Obligations.EveryWordSelectsItsOneRow := by
  intro p w hp
  have hkm := keymatrixAddrOk_of_validParams hp
  rw [← word_fields w, decode_word]
  obtain h | h | h | h | h | h | h | h | h | h | h | h | h | h | h | h := kind_cases (kindOf w) <;> rw [h]
  · simpa using selectedRows_router hkm (.inl rfl) (addrOf w) (dataOf w)
  · simpa [rowIndex_decodeBusWrite] using selectedRows_router hkm (.inr rfl) (addrOf w) (dataOf w)
  · exact selectedRows_key p _ _
  iterate 7
    apply selectedRows_of_one_match
    rw [filter_opcodeRows_of_event_kind p _ _ (by decide) (by decide)]
    simp [eventRows, matchesWord_word, Instr.rowIndex]
  · exact selectedRows_cartRead p _ _
  · exact selectedRows_cartWrite p _ _
  all_goals
    apply selectedRows_of_one_match
    rw [filter_opcodeRows_of_device_kind p _ _ (by decide)]
    simp [deviceRows, matchesWord_word, Instr.rowIndex]

end Sys2Proof.Machine
end

section
/-! PROOFS. The family of 40_cartridge_nobanking.md: the three operations of a NoBanking cartridge (R121 to R123), and
that the cartridge port's decode and meanings are `CartRead` and `CartWrite` on either variant (R120, R140). -/

namespace Sys2Proof.Machine

/-! ### The NoBanking cartridge -/

/-- Settles O10: an address below `0x8000` is an offset the 32 KiB image holds. -/
theorem noBankingReadsTheImage : Obligations.NoBankingReadsTheImage := by
  intro s a hf hv ha
  have hbyte : nbReadRom s a = .byte (s.params.image.read a.toNat) :=
    readImage_byte (lt_imageSize_noBanking hv ((range_8000_0000 a).1 ha))
  rw [exec, execCartrdNbRom, whileRunning_running _ _ hf, hbyte]
  rfl

/-- Settles O11: the read is the fatal error itself. -/
theorem noBankingOutOfRangeReadIsFatal : Obligations.NoBankingOutOfRangeReadIsFatal :=
  fun s a hf _ _ => whileRunning_running s (raiseFatal .noBankingReadOutOfRange a s) hf

/-- Settles O12: the write leaves the state as it is and answers nothing. -/
theorem noBankingWriteIsNoOp : Obligations.NoBankingWriteIsNoOp :=
  fun s _ _ hf _ => whileRunning_running s (finish s) hf

/-! ### `CartRead`, range by range -/

section
variable {s : State} {a : Addr}

theorem cartRead_noBanking_rom (hv : s.params.variant = .noBanking) (ha : a &&& 0x8000 = 0x0000) :
    cartRead s a = nbReadRom s a := by
  rw [range_8000_0000] at ha
  simp only [cartRead, hv]
  rw [if_pos (by rw [getLsbD_15, decide_eq_false_iff_not]; omega)]

theorem cartRead_noBanking_fatal (hv : s.params.variant = .noBanking) (ha : a &&& 0x8000 = 0x8000) :
    cartRead s a = nbReadFatal a := by
  rw [range_8000_8000] at ha
  simp only [cartRead, hv]
  rw [if_neg (by rw [getLsbD_15, decide_eq_false_iff_not]; omega)]

theorem cartRead_bank0 (hv : s.params.variant = .bankSwitching) (ha : a &&& 0xC000 = 0x0000) :
    cartRead s a = bsReadBank0 s a := by
  rw [range_C000_0000] at ha
  simp only [cartRead, hv, BitVec.le_def, BitVec.toNat_ofNat]
  rw [if_pos (by omega)]

theorem cartRead_window (hv : s.params.variant = .bankSwitching) (ha : a &&& 0xC000 = 0x4000) :
    cartRead s a = bsReadWindow s a := by
  rw [range_C000_4000] at ha
  simp only [cartRead, hv, BitVec.le_def, BitVec.toNat_ofNat]
  rw [if_neg (by omega), if_pos (by omega)]

/-- From `0x8000` on, all but the RAM window is open (41_cartridge_bankswitching.md R144). -/
theorem cartRead_open (hv : s.params.variant = .bankSwitching)
    (ha : 0x8000 ≤ a.toNat ∧ ¬ inRamWindow a = true) : cartRead s a = bsReadOpen a := by
  obtain ⟨habove, hram⟩ := ha
  simp only [cartRead, hv, BitVec.le_def, BitVec.toNat_ofNat]
  rw [if_neg (by omega), if_neg (by omega), if_neg hram]

/-! ### `CartWrite`, range by range -/

theorem cartWrite_romSelect (hv : s.params.variant = .bankSwitching) (ha : a &&& 0xE000 = 0x2000) (v : Byte) :
    cartWrite a v s = bsWriteRomSelect v s := by
  rw [range_E000_2000] at ha
  simp only [cartWrite, hv, BitVec.le_def, BitVec.toNat_ofNat]
  rw [if_neg (by omega), if_pos (by omega)]

theorem cartWrite_ramSelect (hv : s.params.variant = .bankSwitching) (ha : a &&& 0xE000 = 0x4000) (v : Byte) :
    cartWrite a v s = bsWriteRamSelect v s := by
  rw [range_E000_4000] at ha
  simp only [cartWrite, hv, BitVec.le_def, BitVec.toNat_ofNat]
  rw [if_neg (by omega), if_neg (by omega), if_pos (by omega)]

/-- From `0x8000` on, a write outside the RAM window has no effect (41_cartridge_bankswitching.md R153). -/
theorem cartWrite_none (hv : s.params.variant = .bankSwitching)
    (ha : 0x8000 ≤ a.toNat ∧ ¬ inRamWindow a = true) (v : Byte) : cartWrite a v s = bsWriteNone a v s := by
  obtain ⟨habove, hram⟩ := ha
  simp only [cartWrite, hv, BitVec.le_def, BitVec.toNat_ofNat]
  rw [if_neg (by omega), if_neg (by omega), if_neg (by omega), if_neg (by omega), if_neg hram]

end

/-! ### The two open ranges -/

/-- `0x8000` to `0x9FFF` lies above the ROM and outside the RAM window. -/
theorem above_rom_outside_ram_of_8000 {a : Addr} (ha : a &&& 0xE000 = 0x8000) :
    0x8000 ≤ a.toNat ∧ ¬ inRamWindow a = true := by
  rw [range_E000_8000] at ha
  rw [inRamWindow_iff]
  omega

/-- `0xC000` to `0xFFFF` lies above the ROM and outside the RAM window. -/
theorem above_rom_outside_ram_of_C000 {a : Addr} (ha : a &&& 0xC000 = 0xC000) :
    0x8000 ≤ a.toNat ∧ ¬ inRamWindow a = true := by
  rw [range_C000_C000] at ha
  rw [inRamWindow_iff]
  omega

/-! ### The cartridge port -/

/-- The operation a read decodes to is `CartRead`: each row's meaning is the branch of its range. -/
theorem exec_decodeCartRead {s : State} (hf : s.fault = none) (a : Addr) :
    exec (decodeCartRead s.params a) s = finishRead s (cartRead s a) := by
  cases hv : s.params.variant with
  | noBanking =>
    rcases decodeCartRead_noBanking hv a with ⟨ha, h⟩ | ⟨ha, h⟩ <;> rw [h] <;>
      refine (whileRunning_running s _ hf).trans (congrArg _ (Eq.symm ?_))
    · exact cartRead_noBanking_rom hv ha
    · exact cartRead_noBanking_fatal hv ha
  | bankSwitching =>
    rcases decodeCartRead_bankSwitching hv a with ⟨ha, h⟩ | ⟨ha, h⟩ | ⟨ha, h⟩ | ⟨ha, h⟩ | ⟨ha, h⟩ <;> rw [h] <;>
      refine (whileRunning_running s _ hf).trans (congrArg _ (Eq.symm ?_))
    · exact cartRead_bank0 hv ha
    · exact cartRead_window hv ha
    · exact cartRead_ram hv ha
    · exact cartRead_open hv (above_rom_outside_ram_of_8000 ha)
    · exact cartRead_open hv (above_rom_outside_ram_of_C000 ha)

/-- The operation a write decodes to is `CartWrite`: each row's meaning is the branch of its range. -/
theorem exec_decodeCartWrite {s : State} (hf : s.fault = none) (a : Addr) (v : Byte) :
    exec (decodeCartWrite s.params a v) s = finish (cartWrite a v s) := by
  cases hv : s.params.variant with
  | noBanking =>
    rw [decodeCartWrite_noBanking hv, cartWrite_noBanking hv]
    exact whileRunning_running s _ hf
  | bankSwitching =>
    rcases decodeCartWrite_bankSwitching hv a v with
      ⟨ha, h⟩ | ⟨ha, h⟩ | ⟨ha, h⟩ | ⟨ha, h⟩ | ⟨ha, h⟩ | ⟨ha, h⟩ | ⟨ha, h⟩ <;> rw [h] <;>
      refine (whileRunning_running s _ hf).trans (congrArg finish (Eq.symm ?_))
    · exact cartWrite_ramEnable hv ha v
    · exact cartWrite_romSelect hv ha v
    · exact cartWrite_ramSelect hv ha v
    · exact cartWrite_none6 hv ha v
    · exact cartWrite_none hv (above_rom_outside_ram_of_8000 ha) v
    · exact cartWrite_ram hv ha v
    · exact cartWrite_none hv (above_rom_outside_ram_of_C000 ha) v

/-- Settles O25: kinds `0xA` and `0xB` are the cartridge's own decodes, and `exec` of each is the port's access. -/
theorem cartridgePortFollowsTheRanges : Obligations.CartridgePortFollowsTheRanges := by
  intro s a v hf
  rw [decode_word, decode_word]
  exact ⟨exec_decodeCartRead hf a, exec_decodeCartWrite hf a v⟩

end Sys2Proof.Machine
end

section
/-! PROOFS. The family of 41_cartridge_bankswitching.md: reads (R141 to R144) and writes (R145 to R153) of a
BankSwitching cartridge, RAM through the bus (R157), what no operation changes (R155, R158), and construction (R154). -/

namespace Sys2Proof.Machine

/-! ### Accesses of a running block -/

/-- A read of a running block that comes to a byte answers it. -/
theorem read_answers_byte {s : State} (hf : s.fault = none) {r : ReadResult} {b : Byte} (hr : r = .byte b) :
    whileRunning s (finishRead s r) = .next (s.reply (.byte b)) := by
  rw [whileRunning_running _ _ hf, hr, finishRead]

/-- A write of a running block goes on to the written state and answers nothing. -/
theorem write_goes_on {s : State} (hf : s.fault = none) (t : State) :
    whileRunning s (finish t) = .next (t.reply .nothing) :=
  whileRunning_running s _ hf

/-! ### Reads of ROM -/

/-- Settles O13: the lower 16 KiB lie in an image of two banks, and no register enters the offset. -/
theorem bankZeroIsFixed : Obligations.BankZeroIsFixed := by
  intro s a hf hv hbanks ha
  rw [range_C000_0000] at ha
  have hlt : a.toNat < s.params.imageSize := by rw [imageSize_bankSwitching hv]; omega
  exact read_answers_byte hf (readImage_byte hlt)

/-- Settles O14: the selected bank is one the image holds, and the window's offset is counted from its start. -/
theorem windowShowsTheSelectedBank : Obligations.WindowShowsTheSelectedBank := by
  intro s a hf hv hlow hhigh ha
  obtain ⟨hge, hle⟩ := (range_C000_4000 a).1 ha
  have hlt : windowImageOffset s.romSel a < s.params.imageSize := by
    rw [imageSize_bankSwitching hv]
    exact windowImageOffset_lt s.romSel a s.params.banks (by omega)
  rw [← windowImageOffset_eq s.romSel a hge hle]
  exact read_answers_byte hf (readImage_byte hlt)

/-- Settles O16: the open ranges answer the byte `0x00`. -/
theorem openCartridgeAddressesReadZero : Obligations.OpenCartridgeAddressesReadZero :=
  fun _ _ hf _ => ⟨fun _ => read_answers_byte hf rfl, fun _ => read_answers_byte hf rfl⟩

/-! ### The RAM window -/

theorem ramOpen_iff (s : State) : s.ramOpen = true ↔ s.params.hasRam = true ∧ s.ramEn = true := by
  rw [State.ramOpen, Bool.and_eq_true]

/-- RAM is closed when it is absent or disabled. -/
theorem ramOpen_eq_false_iff (s : State) : s.ramOpen = false ↔ s.params.hasRam = false ∨ s.ramEn = false := by
  rw [State.ramOpen, Bool.and_eq_false_iff]

/-- A read of the RAM window in numbers, with the gate of R143. -/
theorem bsReadRam_eq (s : State) {a : Addr} (ha : a &&& 0xE000 = 0xA000) :
    bsReadRam s a = .byte
      (if s.params.hasRam = true ∧ s.ramEn = true then s.ram.read (s.ramSel.toNat * 0x2000 + (a.toNat - 0xA000))
       else 0x00) := by
  obtain ⟨hge, hle⟩ := (range_E000_A000 a).1 ha
  rw [bsReadRam, ramKey_eq s.ramSel a hge hle]
  simp only [ramOpen_iff]
  split <;> rfl

@[simp] theorem bsWriteRam_params (a : Addr) (v : Byte) (s : State) : (bsWriteRam a v s).params = s.params := by
  unfold bsWriteRam; split <;> rfl

@[simp] theorem bsWriteRam_fault (a : Addr) (v : Byte) (s : State) : (bsWriteRam a v s).fault = s.fault := by
  unfold bsWriteRam; split <;> rfl

@[simp] theorem bsWriteRam_ramEn (a : Addr) (v : Byte) (s : State) : (bsWriteRam a v s).ramEn = s.ramEn := by
  unfold bsWriteRam; split <;> rfl

@[simp] theorem bsWriteRam_ramSel (a : Addr) (v : Byte) (s : State) : (bsWriteRam a v s).ramSel = s.ramSel := by
  unfold bsWriteRam; split <;> rfl

/-- A write to closed RAM is dropped. -/
theorem bsWriteRam_closed {s : State} (h : s.ramOpen = false) (a : Addr) (v : Byte) : bsWriteRam a v s = s := by
  rw [bsWriteRam, if_neg (ne_true_of_eq_false h)]

/-- A write to open RAM stores at the key of the selected bank, in numbers (R152). -/
theorem bsWriteRam_open {s : State} (h : s.ramOpen = true) {a : Addr} (ha : a &&& 0xE000 = 0xA000) (v : Byte) :
    bsWriteRam a v s = { s with ram := s.ram.write (s.ramSel.toNat * 0x2000 + (a.toNat - 0xA000)) v } := by
  obtain ⟨hge, hle⟩ := (range_E000_A000 a).1 ha
  rw [bsWriteRam, if_pos h, ramKey_eq s.ramSel a hge hle]

/-- Two addresses of the RAM window name the same byte of a bank exactly when they are equal. -/
theorem ramWindow_key_eq_iff {a b : Addr} (ha : a &&& 0xE000 = 0xA000) (hb : b &&& 0xE000 = 0xA000) (bank : Nat) :
    bank * 0x2000 + (b.toNat - 0xA000) = bank * 0x2000 + (a.toNat - 0xA000) ↔ b = a := by
  rw [range_E000_A000] at ha hb
  rw [← BitVec.toNat_inj]
  omega

/-- Settles O15: the read is `bsReadRam`, a byte in every case. -/
theorem cartRamReadIsGated : Obligations.CartRamReadIsGated :=
  fun s _ hf _ ha => read_answers_byte hf (bsReadRam_eq s ha)

/-- Settles O21: an open RAM takes one canonical store; a closed one drops the write. -/
theorem ramWriteStoresOneByte : Obligations.RamWriteStoresOneByte := by
  intro s a v hf _ ha hwf
  have hexec : exec (.cartwrBsRam a v) s = .next ((bsWriteRam a v s).reply .nothing) := write_goes_on hf _
  refine ⟨fun hopen => ?_, fun hclosed => ?_⟩
  · rw [bsWriteRam_open ((ramOpen_iff s).2 hopen) ha] at hexec
    exact ⟨_, hexec, rfl, Memory.read_write_same _ hwf _ v, fun k hk => Memory.read_write_other _ hwf _ k v hk⟩
  · rw [bsWriteRam_closed ((ramOpen_eq_false_iff s).2 hclosed)] at hexec
    exact hexec

/-- A bus read of the RAM window is the cartridge's, gated as R143 says. -/
theorem exec_busrdCartRam {s : State} (hf : s.fault = none) (hv : s.params.variant = .bankSwitching) {a : Addr}
    (ha : a &&& 0xE000 = 0xA000) :
    exec (.busrdCartRam a) s = .next (s.reply (.byte
      (if s.params.hasRam = true ∧ s.ramEn = true then s.ram.read (s.ramSel.toNat * 0x2000 + (a.toNat - 0xA000))
       else 0x00))) :=
  read_answers_byte hf ((cartRead_ram hv ha).trans (bsReadRam_eq s ha))

/-- What the RAM window reads after a RAM write, with its gate: the byte written at its address, the old byte elsewhere. -/
theorem ramWindow_read_bsWriteRam {s : State} (hwf : s.ram.wf = true) {a b : Addr} (ha : a &&& 0xE000 = 0xA000)
    (hb : b &&& 0xE000 = 0xA000) (v : Byte) :
    (if s.params.hasRam = true ∧ s.ramEn = true then
      (bsWriteRam a v s).ram.read (s.ramSel.toNat * 0x2000 + (b.toNat - 0xA000)) else 0x00) =
    if s.params.hasRam = true ∧ s.ramEn = true then
      (if b = a then v else s.ram.read (s.ramSel.toNat * 0x2000 + (b.toNat - 0xA000))) else 0x00 := by
  refine ite_congr rfl (fun hgate => ?_) fun _ => rfl
  rw [bsWriteRam_open ((ramOpen_iff s).2 hgate) ha, Memory.read_write s.ram hwf]
  simp only [ramWindow_key_eq_iff ha hb]

/-- Settles O22: both bus accesses are the cartridge's own, and the write keeps the gate, the bank and every other byte. -/
theorem ramReadsBackWhatWasWritten : Obligations.RamReadsBackWhatWasWritten := by
  intro s a v hf hv hwf ha
  have hwrite : exec (.buswrCartRam a v) s = .next ((bsWriteRam a v s).reply .nothing) := by
    rw [← cartWrite_ram hv ha]
    exact write_goes_on hf _
  refine ⟨_, hwrite, fun b hb => ?_⟩
  rw [exec_busrdCartRam (by simpa using hf) (by simpa using hv) hb, ← ramWindow_read_bsWriteRam hwf ha hb v]
  simp [State.reply]

/-! ### Writes of the registers -/

/-- A select of a switchable bank takes it. -/
theorem selectedRomBank_of_switchable (policy : RomOor) {n : Nat} {v : Byte} (old : BitVec 7)
    (h : 1 ≤ v.toNat % 128 ∧ v.toNat % 128 ≤ n - 1) : selectedRomBank policy n v old = romBankField v := by
  rw [← romBankField_toNat] at h
  exact if_pos h

/-- A select of bank 0, or of `N` and above, is the policy's (R147, R148). -/
theorem selectedRomBank_of_not_switchable (policy : RomOor) {n : Nat} {v : Byte} (old : BitVec 7)
    (h : v.toNat % 128 = 0 ∨ n ≤ v.toNat % 128) :
    selectedRomBank policy n v old = outOfRangeBank policy (romBankField v) n old := by
  rw [← romBankField_toNat] at h
  exact if_neg (by omega)

theorem outOfRangeBank_clamp_zero {b : BitVec 7} (h : b.toNat = 0) (n : Nat) (old : BitVec 7) :
    (outOfRangeBank .clamp b n old).toNat = 1 := by
  have hb : b = 0 := BitVec.eq_of_toNat_eq h
  rw [outOfRangeBank, if_pos hb]
  rfl

/-- A bank number is below 128, so a number of banks it reaches is one a select can name. -/
theorem outOfRangeBank_clamp_above {b : BitVec 7} {n : Nat} (hn : 2 ≤ n) (h : n ≤ b.toNat) (old : BitVec 7) :
    (outOfRangeBank .clamp b n old).toNat = n - 1 := by
  have hlt := b.isLt
  have hb : b ≠ 0 := by
    rintro rfl
    exact absurd (hn.trans h) (by decide)
  rw [outOfRangeBank, if_neg hb, BitVec.toNat_ofNat, Nat.mod_eq_of_lt (by omega)]

/-- Settles O18: the three cases of `selectedRomBank`. -/
theorem romSelectWrite : Obligations.RomSelectWrite := by
  intro s a v hf _ _ hbanks
  refine ⟨_, write_goes_on hf (bsWriteRomSelect v s), rfl, fun h => ?_, fun h hp => ?_, fun h hp => ?_, fun h hp => ?_⟩ <;>
    rw [reply_romSel, bsWriteRomSelect_romSel]
  · rw [selectedRomBank_of_switchable _ _ h, romBankField_toNat]
  · rw [selectedRomBank_of_not_switchable _ _ h, hp, outOfRangeBank]
  · rw [selectedRomBank_of_not_switchable _ _ (.inl h), hp]
    exact outOfRangeBank_clamp_zero ((romBankField_toNat v).trans h) _ _
  · rw [selectedRomBank_of_not_switchable _ _ (.inr h), hp]
    exact outOfRangeBank_clamp_above hbanks (h.trans_eq (romBankField_toNat v).symm) _

/-- Settles O17: the flag is the datum's low nibble, and without RAM the state stays. -/
theorem ramEnableWriteSetsTheFlag : Obligations.RamEnableWriteSetsTheFlag := by
  intro s a v hf _ _
  have hexec : exec (.cartwrBsRamen a v) s = .next ((bsWriteRamEnable v s).reply .nothing) := write_goes_on hf _
  refine ⟨fun hram => ?_, fun hram => ?_⟩
  · rw [hexec, bsWriteRamEnable, if_pos hram, enablesRam_eq]
    rfl
  · rw [hexec, bsWriteRamEnable, if_neg (ne_true_of_eq_false hram)]
    rfl

/-- Settles O19: the write puts the datum's low two bits in `ram_sel`, whatever RAM there is. -/
theorem ramSelectWrite : Obligations.RamSelectWrite :=
  fun s _ v hf _ _ => ⟨_, write_goes_on hf (bsWriteRamSelect v s), rfl, ramBankField_toNat v⟩

/-- Settles O20: the three other ranges leave the state as it is. -/
theorem otherCartridgeWritesDoNothing : Obligations.OtherCartridgeWritesDoNothing :=
  fun s _ _ hf _ => ⟨fun _ => write_goes_on hf s, fun _ => write_goes_on hf s, fun _ => write_goes_on hf s⟩

/-! ### What no operation changes -/

/-- No effect an operation can have touches the construction parameters (00_scope.md R8). -/
theorem Effect.params_eq {s t : State} {i : Instr} (e : Effect s i t) : t.params = s.params := by
  cases e with
  | busCart _ a v => exact (cartWrite_frame a v s).1
  | press _ k => rw [pressKey_eq]; rfl
  | saves => rcases saveRam_cases s with ⟨r, heq⟩ | ⟨-, -, -, heq⟩ <;> rw [heq] <;> rfl
  | loads => rcases loadRam_cases s with ⟨r, heq⟩ | ⟨-, -, -, m, -, heq⟩ <;> rw [heq] <;> rfl
  | ramEnable a v => rcases bsWriteRamEnable_cases v s with ⟨-, heq⟩ | ⟨-, heq⟩ <;> rw [heq] <;> rfl
  | ramWrite a v => rcases bsWriteRam_cases a v s with ⟨-, heq⟩ | ⟨-, heq⟩ <;> rw [heq] <;> rfl
  | answers | external | fatalCart | fatalBus | column | writesIf | writesIe | unknownKey | releases | requests
  | clears | romSelect | ramSelect => rfl

/-- Settles O48: the parameters, the image among them, are the same after every effect. -/
theorem romIsNeverWritten : Obligations.RomIsNeverWritten := by
  intro i s t h
  obtain ⟨-, e⟩ := exec_next h
  exact e.params_eq

/-- A RAM write that changes RAM finds it open. -/
theorem ramOpen_of_bsWriteRam_ne {s : State} {a : Addr} {v : Byte} (h : (bsWriteRam a v s).ram ≠ s.ram) :
    s.ramOpen = true := by
  rcases bsWriteRam_cases a v s with ⟨-, heq⟩ | ⟨hopen, -⟩
  · exact absurd (congrArg State.ram heq) h
  · exact hopen

/-- A cartridge write that changes RAM lies in the RAM window and finds RAM open. -/
theorem ramOpen_of_cartWrite_ne {s : State} {a : Addr} {v : Byte} (h : (cartWrite a v s).ram ≠ s.ram) :
    0xA000 ≤ a.toNat ∧ s.ramOpen = true := by
  rcases cartWrite_cases a v s with heq | ⟨-, ⟨-, heq⟩ | ⟨-, -, heq⟩ | ⟨-, -, heq⟩ | ⟨hge, -, heq⟩⟩ <;> rw [heq] at h
  · exact absurd rfl h
  · rcases bsWriteRamEnable_cases v s with ⟨-, hsame⟩ | ⟨-, hsame⟩ <;> rw [hsame] at h <;> exact absurd rfl h
  · exact absurd rfl h
  · exact absurd rfl h
  · exact ⟨hge, ramOpen_of_bsWriteRam_ne h⟩

/-- A well-formed bus write to cartridge ROM lies below `0x8000`. -/
theorem le_of_wellFormed_buswrCartRom {p : Params} {a : Addr} {v : Byte}
    (h : (Instr.buswrCartRom a v).wellFormed p = true) : a.toNat ≤ 0x7FFF := by
  simp only [Instr.wellFormed, Bool.and_eq_true, beq_iff_eq] at h
  exact (range_8000_0000 a).1 h.1

/-- Settles O49: of all effects `LOAD` and a write in the RAM window alone reach RAM, the latter only when it is open. -/
theorem ramChangesOnlyByWritesAndLoad : Obligations.RamChangesOnlyByWritesAndLoad := by
  intro i s t hi h hne
  obtain ⟨-, e⟩ := exec_next h
  cases e with
  | loads => exact .inl rfl
  | ramWrite a v =>
    obtain ⟨hram, hen⟩ := (ramOpen_iff s).1 (ramOpen_of_bsWriteRam_ne hne)
    exact .inr ⟨hram, hen, a, v, .inl rfl⟩
  | busCart _ a v hbus =>
    obtain ⟨hge, hopen⟩ := ramOpen_of_cartWrite_ne hne
    obtain ⟨hram, hen⟩ := (ramOpen_iff s).1 hopen
    rcases hbus with rfl | rfl
    · have := le_of_wellFormed_buswrCartRom hi
      omega
    · exact .inr ⟨hram, hen, a, v, .inr rfl⟩
  | press _ k => rw [pressKey_eq] at hne; exact absurd rfl hne
  | saves => rcases saveRam_cases s with ⟨r, heq⟩ | ⟨-, -, -, heq⟩ <;> rw [heq] at hne <;> exact absurd rfl hne
  | ramEnable a v =>
    rcases bsWriteRamEnable_cases v s with ⟨-, heq⟩ | ⟨-, heq⟩ <;> rw [heq] at hne <;> exact absurd rfl hne
  | answers | external | fatalCart | fatalBus | column | writesIf | writesIe | unknownKey | releases | requests
  | clears | romSelect | ramSelect => exact absurd rfl hne

/-! ### Construction -/

/-- A construction that yields parameters made every check, and they are `b.params`. -/
theorem construct_eq_ok_iff (b : BuildArgs) (p : Params) :
    construct b = .ok p ↔ (∀ c ∈ b.checks, c.1 = true) ∧ p = b.params := by
  rcases construct_cases b with ⟨hall, hb⟩ | ⟨c, hc, hfalse, hb⟩ <;> rw [hb]
  · exact ⟨fun h => ⟨hall, (Except.ok.inj h).symm⟩, fun ⟨_, h⟩ => h ▸ rfl⟩
  · exact iff_of_false (by simp) fun ⟨hall, _⟩ => ne_true_of_eq_false hfalse (hall c hc)

/-- A construction one check of which fails is refused. -/
theorem construct_refused {b : BuildArgs} (h : ¬ ∀ c ∈ b.checks, c.1 = true) : ∃ r, construct b = .error r := by
  rcases construct_cases b with ⟨hall, -⟩ | ⟨c, -, -, hb⟩
  · exact absurd hall h
  · exact ⟨c.2, hb⟩

/-- What the checks of a construction ask of either variant. -/
def BuildArgs.commonChecks (b : BuildArgs) : Prop :=
  Memory.sized b.rawImage b.rawLength = true ∧ Memory.sized b.ramInit Config.ramSize = true ∧
  keymatrixAddrOk b.keymatrixAddr = true ∧ selectCodesOk b.selRow0 b.selRow1 = true ∧ keymapOk b.keymap = true

theorem BuildArgs.banks_eq (b : BuildArgs) : b.banks = b.romSize / 0x4000 := rfl

theorem neededLength_bankSwitching {b : BuildArgs} (hv : b.variant = .bankSwitching) :
    b.neededLength = b.banks * 0x4000 := by
  rw [BuildArgs.neededLength, hv]
  rfl

theorem neededLength_noBanking {b : BuildArgs} (hv : b.variant = .noBanking) : b.neededLength = 0x8000 := by
  rw [BuildArgs.neededLength, hv]
  rfl

/-- The checks of a BankSwitching construction, in the terms of R154. -/
theorem checks_bankSwitching_iff {b : BuildArgs} (hv : b.variant = .bankSwitching) :
    (∀ c ∈ b.checks, c.1 = true) ↔ b.commonChecks ∧ b.romSize % 0x4000 = 0 ∧ b.ramSize % 0x2000 = 0 ∧
      2 ≤ b.banks ∧ b.banks * 0x4000 ≤ b.rawLength := by
  simp only [BuildArgs.checks, BuildArgs.commonChecks, hv, neededLength_bankSwitching hv, Config.romBankSize,
    Config.ramBankSize, List.forall_mem_cons, List.not_mem_nil, false_implies, implies_true, and_true,
    Bool.and_eq_true, Bool.or_eq_true, beq_iff_eq, reduceCtorEq, false_or, decide_eq_true_eq]
  tauto

/-- The checks of a NoBanking construction, in the terms of R124. -/
theorem checks_noBanking_iff {b : BuildArgs} (hv : b.variant = .noBanking) :
    (∀ c ∈ b.checks, c.1 = true) ↔ b.commonChecks ∧ 0x8000 ≤ b.rawLength := by
  simp only [BuildArgs.checks, BuildArgs.commonChecks, hv, neededLength_noBanking hv, List.forall_mem_cons,
    List.not_mem_nil, false_implies, implies_true, and_true, Bool.and_eq_true, BEq.rfl, Bool.true_or, true_and,
    decide_eq_true_eq]
  tauto

/-- The checks hold only of arguments that meet the common ones. -/
theorem commonChecks_of_checks {b : BuildArgs} (h : ∀ c ∈ b.checks, c.1 = true) : b.commonChecks := by
  cases hv : b.variant with
  | noBanking => exact ((checks_noBanking_iff hv).1 h).1
  | bankSwitching => exact ((checks_bankSwitching_iff hv).1 h).1

/-- Checked arguments give a cartridge its variant admits: NoBanking never has RAM or battery, BankSwitching has two banks. -/
theorem cartridgeOk_params {b : BuildArgs} (h : ∀ c ∈ b.checks, c.1 = true) : cartridgeOk b.params = true := by
  cases hv : b.variant with
  | noBanking => simp [cartridgeOk, BuildArgs.params, hv]
  | bankSwitching =>
    obtain ⟨-, -, -, hbanks, -⟩ := (checks_bankSwitching_iff hv).1 h
    simpa [cartridgeOk, BuildArgs.params, hv] using hbanks

/-- Checked arguments give admitted parameters. -/
theorem validParams_params {b : BuildArgs} (h : ∀ c ∈ b.checks, c.1 = true) : validParams b.params = true := by
  obtain ⟨hraw, hram, hkm, hsel, hkeys⟩ := commonChecks_of_checks h
  have hwf : b.rawImage.wf = true := by
    rw [Memory.sized, Bool.and_eq_true] at hraw
    exact hraw.1
  have himage : b.params.image.sized b.params.imageSize = true := by
    rw [imageSize_params]
    exact Memory.sized_truncate b.rawImage _ hwf
  simp only [validParams, Bool.and_eq_true]
  exact ⟨⟨⟨⟨⟨hkm, hsel⟩, hkeys⟩, himage⟩, hram⟩, cartridgeOk_params h⟩

/-- The kept image reads as the raw one below its size and as nothing from there on (40_cartridge_nobanking.md R124). -/
theorem read_params_image (b : BuildArgs) (k : Nat) :
    b.params.image.read k = if k < b.params.imageSize then b.rawImage.read k else 0x00 := by
  rw [imageSize_params]
  split
  · exact Memory.read_truncate _ _ k ‹_›
  · exact Memory.read_truncate_beyond _ _ k (by omega)

/-- A BankSwitching construction that meets R154 has RAM by the declared size, the battery as flagged and an image of the
declared size. -/
theorem construct_bankSwitching {b : BuildArgs} (hcommon : b.commonChecks) (hv : b.variant = .bankSwitching)
    (hrom : b.romSize % 0x4000 = 0) (hram : b.ramSize % 0x2000 = 0) (hbanks : 2 ≤ b.romSize / 0x4000)
    (hlength : b.romSize / 0x4000 * 0x4000 ≤ b.rawLength) :
    construct b = .ok b.params ∧ b.params.banks = b.romSize / 0x4000 ∧ b.params.hasRam = decide (0 < b.ramSize) ∧
      b.params.hasBattery = b.battery ∧ b.params.imageSize = b.romSize := by
  have hchecks := (checks_bankSwitching_iff hv).2 ⟨hcommon, hrom, hram, hbanks, hlength⟩
  have hsize : b.params.imageSize = b.romSize := by
    rw [imageSize_params, neededLength_bankSwitching hv, BuildArgs.banks_eq]
    omega
  exact ⟨(construct_eq_ok_iff b _).2 ⟨hchecks, rfl⟩, rfl, by simp [BuildArgs.params, hv],
    by simp [BuildArgs.params, hv], hsize⟩

/-- A NoBanking construction from 32 KiB or more keeps 32 KiB, without RAM or battery. -/
theorem construct_noBanking {b : BuildArgs} (hcommon : b.commonChecks) (hv : b.variant = .noBanking)
    (hlength : 0x8000 ≤ b.rawLength) :
    construct b = .ok b.params ∧ b.params.hasRam = false ∧ b.params.hasBattery = false ∧
      b.params.imageSize = 0x8000 := by
  have hchecks := (checks_noBanking_iff hv).2 ⟨hcommon, hlength⟩
  exact ⟨(construct_eq_ok_iff b _).2 ⟨hchecks, rfl⟩, by simp [BuildArgs.params, hv], by simp [BuildArgs.params, hv],
    imageSize_noBanking hv⟩

/-- Settles O55: a construction yields `b.params` exactly when its checks hold, and each variant's checks are the
conditions of R154 and R124. -/
theorem constructionAdmitsOnlySoundCartridges : Obligations.ConstructionAdmitsOnlySoundCartridges := by
  refine ⟨fun b p h => ?_, fun b => ?_, fun b hraw hinit hkm hsel hkeys => ⟨?_, ?_⟩, fun b hv hbad => ?_,
    fun b hv hshort => ?_⟩
  · obtain ⟨hchecks, rfl⟩ := (construct_eq_ok_iff b p).1 h
    exact ⟨validParams_params hchecks, rfl, rfl, rfl, rfl, rfl, rfl, rfl, rfl, rfl, read_params_image b⟩
  · simp only [construct_eq_ok_iff, and_true]
  · intro hv hrom hram hbanks hlength
    exact ⟨_, construct_bankSwitching ⟨hraw, hinit, hkm, hsel, hkeys⟩ hv hrom hram hbanks hlength⟩
  · intro hv hlength
    exact ⟨_, construct_noBanking ⟨hraw, hinit, hkm, hsel, hkeys⟩ hv hlength⟩
  · refine construct_refused fun hchecks => ?_
    obtain ⟨-, hrom, hram, hbanks, hlength⟩ := (checks_bankSwitching_iff hv).1 hchecks
    rw [BuildArgs.banks_eq] at hbanks hlength
    omega
  · refine construct_refused fun hchecks => ?_
    obtain ⟨-, hlength⟩ := (checks_noBanking_iff hv).1 hchecks
    omega

end Sys2Proof.Machine
end

section
/-! PROOFS. The family of 42_persistence.md: what `SAVE` and `LOAD` do (R172 to R175), that a saved record survives every
operation but `SAVE` (R176), and that it survives a power cycle (R177). -/

namespace Sys2Proof.Machine

/-! ### `SAVE` and `LOAD` of a running block -/

section

variable {s : State}

/-- Without RAM or battery, and on NoBanking, `SAVE` and `LOAD` only answer `ok` (42_persistence.md R172, R174, R126). -/
theorem saveRam_loadRam_without_ram_or_battery
    (h : s.params.variant = .noBanking ∨ s.params.hasRam = false ∨ s.params.hasBattery = false) :
    saveRam s = s.reply .ok ∧ loadRam s = s.reply .ok := by
  cases hv : s.params.variant with
  | noBanking => simp only [saveRam, loadRam, hv, and_self]
  | bankSwitching =>
    have habsent : (s.params.hasRam && s.params.hasBattery) = false :=
      Bool.and_eq_false_iff.2 (h.resolve_left (by rw [hv]; decide))
    simp only [saveRam, loadRam, hv, habsent, Bool.not_false, if_true, and_self]

theorem exec_save (hf : s.fault = none) : exec .save s = .next (saveRam s) := whileRunning_running s _ hf

theorem exec_load (hf : s.fault = none) : exec .load s = .next (loadRam s) := whileRunning_running s _ hf

end

/-! ### With RAM and battery -/

section

variable {s t : State} (hv : s.params.variant = .bankSwitching) (hram : s.params.hasRam = true)
  (hbattery : s.params.hasBattery = true)

include hv hram hbattery

/-- With RAM and battery the store's call alone decides what `SAVE` does (42_persistence.md R172, R173). -/
theorem saveRam_with_ram_and_battery :
    saveRam s =
      if s.draws.saveFails then s.reply (.error .persistenceError)
      else State.reply .ok { s with store := some s.ram } := by
  simp only [saveRam, hv, hram, hbattery, Bool.and_self, Bool.not_true, Bool.false_eq_true, if_false]

/-- With RAM and battery a missing or unreadable record is an error (42_persistence.md R175). -/
theorem loadRam_unavailable (h : s.store = none ∨ s.draws.loadFails = true) :
    loadRam s = s.reply (.error .persistenceError) := by
  simp only [loadRam, hv, hram, hbattery, Bool.and_self, Bool.not_true, Bool.false_eq_true, if_false]
  cases hstore : s.store with
  | none => rfl
  | some m =>
    have hfails : s.draws.loadFails = true := by simpa [hstore] using h
    simp only [hfails, if_true]

/-- With RAM and battery a record that is read becomes RAM (42_persistence.md R174). -/
theorem loadRam_available {m : Memory} (hstore : s.store = some m) (hfails : s.draws.loadFails = false) :
    loadRam s = State.reply .ok { s with ram := m } := by
  simp only [loadRam, hv, hram, hbattery, hstore, hfails, Bool.and_self, Bool.not_true, Bool.false_eq_true, if_false]

/-- A `SAVE` that answers `ok` made RAM the record. -/
theorem eq_of_save_ok (h : exec .save s = .next t) (hok : t.out.response = .ok) :
    t = State.reply .ok { s with store := some s.ram } := by
  obtain ⟨-, hnext⟩ := (whileRunning_next _ _ _).1 h
  have ht := Host.Outcome.next.inj hnext
  rw [saveRam_with_ram_and_battery hv hram hbattery] at ht
  split at ht <;> subst ht
  · cases hok
  · rfl

/-- A `LOAD` that answers `ok` found a record and made it RAM. -/
theorem eq_of_load_ok (h : exec .load s = .next t) (hok : t.out.response = .ok) :
    ∃ m, s.store = some m ∧ t = State.reply .ok { s with ram := m } := by
  obtain ⟨-, hnext⟩ := (whileRunning_next _ _ _).1 h
  have ht := Host.Outcome.next.inj hnext
  by_cases hunavailable : s.store = none ∨ s.draws.loadFails = true
  · rw [loadRam_unavailable hv hram hbattery hunavailable] at ht
    subst ht
    cases hok
  · obtain ⟨hstore, hfails⟩ := not_or.1 hunavailable
    obtain ⟨m, hm⟩ := Option.ne_none_iff_exists'.1 hstore
    rw [loadRam_available hv hram hbattery hm (Bool.eq_false_of_not_eq_true hfails)] at ht
    exact ⟨m, hm, ht.symm⟩

end

/-- Settles O42: without RAM or battery only the answer, with both what the draw says of the store's call. -/
theorem saveWritesTheWholeRecord : Obligations.SaveWritesTheWholeRecord := by
  refine fun s hf => ⟨fun habsent => ?_, fun hv hram hbattery => ⟨fun hfails => ?_, fun hfails => ?_⟩⟩ <;>
    rw [exec_save hf]
  · rw [(saveRam_loadRam_without_ram_or_battery habsent).1]
    rfl
  · rw [saveRam_with_ram_and_battery hv hram hbattery, if_pos hfails]
    rfl
  · rw [saveRam_with_ram_and_battery hv hram hbattery, if_neg (ne_true_of_eq_false hfails)]
    rfl

/-- Settles O43: without RAM or battery only the answer, with both the record's presence and the draw decide. -/
theorem loadReplacesAllBanks : Obligations.LoadReplacesAllBanks := by
  refine fun s hf => ⟨fun habsent => ?_, fun hv hram hbattery => ⟨fun hmissing => ?_, fun m hm hfails => ?_⟩⟩ <;>
    rw [exec_load hf]
  · rw [(saveRam_loadRam_without_ram_or_battery habsent).2]
    rfl
  · rw [loadRam_unavailable hv hram hbattery hmissing]
    rfl
  · rw [loadRam_available hv hram hbattery hm hfails]
    rfl

/-! ### The record between a `SAVE` and a `LOAD` -/

/-- Of all effects `SAVE` alone reaches the store (10_state.md R35). -/
theorem Effect.store_eq {s t : State} {i : Instr} (e : Effect s i t) (hi : i ≠ .save) : t.store = s.store := by
  cases e with
  | saves => exact absurd rfl hi
  | busCart _ a v =>
    obtain ⟨-, -, -, -, -, -, hstore, -⟩ := cartWrite_frame a v s
    exact hstore
  | press _ k => rw [pressKey_eq]; rfl
  | loads => rcases loadRam_cases s with ⟨r, heq⟩ | ⟨-, -, -, m, -, heq⟩ <;> rw [heq] <;> rfl
  | ramEnable a v => rcases bsWriteRamEnable_cases v s with ⟨-, heq⟩ | ⟨-, heq⟩ <;> rw [heq] <;> rfl
  | ramWrite a v => rcases bsWriteRam_cases a v s with ⟨-, heq⟩ | ⟨-, heq⟩ <;> rw [heq] <;> rfl
  | answers | external | fatalCart | fatalBus | column | writesIf | writesIe | unknownKey | releases | requests
  | clears | romSelect | ramSelect => rfl

/-- A sequence without a `SAVE` keeps the record; its words are decoded under the same parameters throughout. -/
theorem perform_keeps_store {rs : List Request} {s u : State} (h : perform rs s = .next u)
    (hno : ∀ q ∈ rs, decode s.params q.word ≠ .save) : u.params = s.params ∧ u.store = s.store := by
  induction rs generalizing s with
  | nil => cases h; exact ⟨rfl, rfl⟩
  | cons r rs ih =>
    obtain ⟨t, hexec, hrest⟩ := perform_cons_next h
    obtain ⟨-, e⟩ := exec_next hexec
    obtain ⟨hr, hrs⟩ := List.forall_mem_cons.1 hno
    have hparams : t.params = s.params := e.params_eq
    have hstore : t.store = s.store := e.store_eq hr
    obtain ⟨hparams', hstore'⟩ := ih hrest (by rwa [hparams])
    exact ⟨hparams'.trans hparams, hstore'.trans hstore⟩

/-- Settles O44: the record is the saved RAM after `SAVE`, no operation in between reaches it, and `LOAD` makes it RAM. -/
theorem saveThenLoadRestoresRam : Obligations.SaveThenLoadRestoresRam := by
  refine ⟨?_, ?_⟩
  · intro rs s t u v hv hram hbattery hsave hsaved hno hperform hload hloaded
    have ht := eq_of_save_ok hv hram hbattery hsave hsaved
    have hparams : t.params = s.params := by rw [ht]; rfl
    have hstore : t.store = some s.ram := by rw [ht]; rfl
    obtain ⟨huparams, hustore⟩ := perform_keeps_store hperform (by rwa [hparams])
    rw [← hparams, ← huparams] at hv hram hbattery
    obtain ⟨m, hm, rfl⟩ := eq_of_load_ok hv hram hbattery hload hloaded
    exact Option.some.inj (hm.symm.trans (hustore.trans hstore))
  · intro s hf habsent
    obtain ⟨hsave, -⟩ := saveWritesTheWholeRecord s hf
    obtain ⟨hload, -⟩ := loadReplacesAllBanks s hf
    exact ⟨hsave (.inr habsent), hload (.inr habsent)⟩

/-! ### A power cycle -/

/-- Settles O45: the power cycle takes parameters and record alone from the state `SAVE` left, and `LOAD` makes that
record RAM, the registers as power-on set them. -/
theorem onlyTheStoreSurvivesAPowerCycle : Obligations.OnlyTheStoreSurvivesAPowerCycle := by
  intro s t u ie d hv hram hbattery hsave hsaved
  have hcycle : powerCycle ie t = State.powerOn s.params (some s.ram) ie := by
    rw [eq_of_save_ok hv hram hbattery hsave hsaved]
    rfl
  refine ⟨hcycle, fun hload hloaded => ?_⟩
  rw [hcycle] at hload
  obtain ⟨m, hm, rfl⟩ :=
    eq_of_load_ok (s := { State.powerOn s.params (some s.ram) ie with draws := d }) hv hram hbattery hload hloaded
  exact ⟨(Option.some.inj hm).symm, rfl, rfl, hram⟩

end Sys2Proof.Machine
end

section
/-! PROOFS. The family of 43_peripheral_interrupt_sink.md: the operations on `IF` (R188 to R190) and `RESET` (R192), who
sets and who clears a request (R194, R195), and that nothing but the bus read of `0xFFFF` consults `IE` (R196). -/

namespace Sys2Proof.Machine

/-! ### `RESET` and the operations on `IF` -/

/-- Settles O35: the KeyMatrix's `reset()` is all that `RESET` does. -/
theorem resetRestoresTheKeyMatrix : Obligations.ResetRestoresTheKeyMatrix :=
  fun s hf => write_goes_on hf (keyMatrixReset s)

/-- Settles O38: the two writes of `IF` and its read, on a running block. -/
theorem interruptFlagOperations : Obligations.InterruptFlagOperations :=
  fun s m hf => ⟨write_goes_on hf (requestInterrupt m s), write_goes_on hf (clearInterrupts m s),
    read_answers_byte hf rfl⟩

/-! ### What an operation does to `IF` -/

/-- Of all effects, requests, key events, clears and the bus write at `0xFF0F` alone reach `IF`
(43_peripheral_interrupt_sink.md R194, R195). -/
theorem Effect.ifReg_cases {s t : State} {i : Instr} (e : Effect s i t) :
    t.ifReg = s.ifReg ∨ (∃ m, i = .irqreq m ∧ t.ifReg = s.ifReg ||| m) ∨
    (portOf i = some .key ∧ t.ifReg = s.ifReg ||| maskJoypad) ∨ (∃ m, i = .ifclr m ∧ t.ifReg = s.ifReg &&& ~~~m) ∨
    (∃ v, i = .buswrIf v ∧ t.ifReg = v) := by
  cases e with
  | requests m => exact .inr (.inl ⟨m, rfl, rfl⟩)
  | press _ k hi => exact .inr (.inr (.inl ⟨portOf_of_pressedKey hi, by rw [pressKey_eq]; rfl⟩))
  | unknownKey c => exact .inr (.inr (.inl ⟨rfl, rfl⟩))
  | clears m => exact .inr (.inr (.inr (.inl ⟨m, rfl, rfl⟩)))
  | writesIf v => exact .inr (.inr (.inr (.inr ⟨v, rfl, rfl⟩)))
  | busCart _ a v =>
    obtain ⟨-, -, -, -, hif, -⟩ := cartWrite_frame a v s
    exact .inl hif
  | saves => rcases saveRam_cases s with ⟨r, heq⟩ | ⟨-, -, -, heq⟩ <;> rw [heq] <;> exact .inl rfl
  | loads => rcases loadRam_cases s with ⟨r, heq⟩ | ⟨-, -, -, m, -, heq⟩ <;> rw [heq] <;> exact .inl rfl
  | ramEnable a v => rcases bsWriteRamEnable_cases v s with ⟨-, heq⟩ | ⟨-, heq⟩ <;> rw [heq] <;> exact .inl rfl
  | ramWrite a v => rcases bsWriteRam_cases a v s with ⟨-, heq⟩ | ⟨-, heq⟩ <;> rw [heq] <;> exact .inl rfl
  | answers | external | fatalCart | fatalBus | column | writesIe | releases | romSelect | ramSelect => exact .inl rfl

/-- The joypad mask names bit 4 alone (30_encoding.md R99). -/
theorem getLsbD_maskJoypad (j : Nat) : maskJoypad.getLsbD j = true ↔ j = 4 := by
  have htwoPow : maskJoypad = BitVec.twoPow 8 4 := rfl
  rw [htwoPow, BitVec.getLsbD_twoPow]
  simp [eq_comm]

/-- A bit that a union gains comes from its mask. -/
theorem getLsbD_of_or {x m : Byte} {j : Nat} (hx : x.getLsbD j = false) (h : (x ||| m).getLsbD j = true) :
    m.getLsbD j = true := by
  simpa [hx] using h

/-- Settles O39: where `IF` stays or takes a union no bit is lost; the other two cases are the controller's. -/
theorem onlyTheControllerClearsRequests : Obligations.OnlyTheControllerClearsRequests := by
  intro i s t j h hset hclear
  have hkept (m : Byte) : t.ifReg ≠ s.ifReg ||| m := fun heq => by simp [heq, hset] at hclear
  obtain ⟨-, e⟩ := exec_next h
  rcases e.ifReg_cases with heq | ⟨m, -, heq⟩ | ⟨-, heq⟩ | ⟨m, rfl, -⟩ | ⟨v, rfl, -⟩
  · exact absurd (heq.trans BitVec.or_zero.symm) (hkept 0)
  · exact absurd heq (hkept m)
  · exact absurd heq (hkept maskJoypad)
  · exact .inl rfl
  · exact .inr ⟨v, rfl⟩

/-- Settles O40: a bit `IF` gains is one of the mask or the datum it takes; keeping and clearing gain none. -/
theorem requestsComeFromTheirSources : Obligations.RequestsComeFromTheirSources := by
  intro i s t j h hclear hset
  obtain ⟨-, e⟩ := exec_next h
  rcases e.ifReg_cases with heq | ⟨m, rfl, heq⟩ | ⟨hp, heq⟩ | ⟨m, -, heq⟩ | ⟨v, rfl, heq⟩ <;> rw [heq] at hset
  · exact absurd hset (ne_true_of_eq_false hclear)
  · exact .inl ⟨m, rfl, getLsbD_of_or hclear hset⟩
  · exact .inr (.inl ⟨hp, (getLsbD_maskJoypad j).1 (getLsbD_of_or hclear hset)⟩)
  · simp [hclear] at hset
  · exact .inr (.inr ⟨v, rfl, hset⟩)

/-! ### Every update passes over `IE`

`writeIe x s` is the state with another `IE`; an update that does not consult `IE` commutes with it. -/

section

variable (x : Byte) (s : State)

theorem pressKey_writeIe (k : Key) : pressKey k (writeIe x s) = writeIe x (pressKey k s) := by
  by_cases hrow : (s.params.keymap.pos k).row = 0 <;>
    simp [pressKey, clearKeyBit, requestInterrupt, writeIe, hrow]

theorem bsWriteRamEnable_writeIe (v : Byte) :
    bsWriteRamEnable v (writeIe x s) = writeIe x (bsWriteRamEnable v s) := by
  cases hram : s.params.hasRam <;> simp [bsWriteRamEnable, writeIe, hram]

theorem bsWriteRam_writeIe (a : Addr) (v : Byte) : bsWriteRam a v (writeIe x s) = writeIe x (bsWriteRam a v s) := by
  cases hopen : s.params.hasRam && s.ramEn <;> simp [bsWriteRam, State.ramOpen, writeIe, hopen]

/-- The parameters, which choose the write, are the same with another `IE`. -/
theorem cartWrite_writeIe (a : Addr) (v : Byte) : cartWrite a v (writeIe x s) = writeIe x (cartWrite a v s) := by
  rcases cartWrite_eq_of_params s.params a v with h | h | h | h | h <;> rw [h (writeIe x s) rfl, h s rfl]
  · exact bsWriteRamEnable_writeIe x s v
  · rfl
  · rfl
  · exact bsWriteRam_writeIe x s a v

theorem unclaimedWrite_writeIe (a : Addr) (v : Byte) :
    unclaimedWrite a v (writeIe x s) = writeIe x (unclaimedWrite a v s) := by
  by_cases ha : a ∈ s.params.extMap <;> simp [unclaimedWrite, State.reply, State.replyExternal, writeIe, ha]

theorem saveRam_writeIe : saveRam (writeIe x s) = writeIe x (saveRam s) := by
  cases hv : s.params.variant with
  | noBanking => simp [saveRam, State.reply, writeIe, hv]
  | bankSwitching =>
    cases hkept : s.params.hasRam && s.params.hasBattery <;> cases hfails : s.draws.saveFails <;>
      simp [saveRam, State.reply, writeIe, hv, hkept, hfails]

theorem loadRam_writeIe : loadRam (writeIe x s) = writeIe x (loadRam s) := by
  cases hv : s.params.variant with
  | noBanking => simp [loadRam, State.reply, writeIe, hv]
  | bankSwitching =>
    cases hkept : s.params.hasRam && s.params.hasBattery <;> cases hstore : s.store <;>
      cases hfails : s.draws.loadFails <;> simp [loadRam, State.reply, writeIe, hv, hkept, hstore, hfails]

end

/-! ### No operation but the bus read of `0xFFFF` consults `IE` -/

section

variable {s t : State} (x : Byte)

/-- A read that comes to the same with another `IE` goes on alike. -/
theorem read_writeIe {r : ReadResult} (h : whileRunning s (finishRead s r) = .next t) :
    whileRunning (writeIe x s) (finishRead (writeIe x s) r) = .next (writeIe x t) := by
  obtain ⟨hf, hread⟩ := (whileRunning_next _ _ _).1 h
  rw [whileRunning_running (writeIe x s) _ hf]
  rcases finishRead_next hread with ⟨b, rfl, rfl⟩ | ⟨a, b, rfl, rfl⟩ | ⟨reason, a, rfl, rfl⟩ <;> rfl

/-- An update that passes over `IE`, answer included, goes on alike. -/
theorem update_writeIe {update : State → State} (h : whileRunning s (.next (update s)) = .next t)
    (hupdate : update (writeIe x s) = writeIe x (update s)) :
    whileRunning (writeIe x s) (.next (update (writeIe x s))) = .next (writeIe x t) := by
  obtain ⟨hf, ht⟩ := (whileRunning_next _ _ _).1 h
  cases ht
  rw [whileRunning_running (writeIe x s) _ hf, hupdate]

/-- A write that passes over `IE` goes on alike. -/
theorem write_writeIe {write : State → State} (h : whileRunning s (finish (write s)) = .next t)
    (hwrite : write (writeIe x s) = writeIe x (write s)) :
    whileRunning (writeIe x s) (finish (write (writeIe x s))) = .next (writeIe x t) :=
  update_writeIe x (update := fun s => (write s).reply .nothing) h (by rw [hwrite]; rfl)

/-- Every operation but the two bus accesses of `0xFFFF` goes on alike with another `IE`, and keeps it. -/
theorem exec_writeIe {i : Instr} (h : exec i s = .next t) (hread : i ≠ .busrdIe) (hwrite : ∀ v, i ≠ .buswrIe v) :
    exec i (writeIe x s) = .next (writeIe x t) := by
  cases i
  case busrdIe => exact absurd rfl hread
  case buswrIe v => exact absurd rfl (hwrite v)
  case busrdKm | busrdIf | busrdCartRom | busrdCartRam | busrdUnclaimedLo | busrdUnclaimedHi | ifrd | cartrdNbRom |
      cartrdNbFatal | cartrdBsBank0 | cartrdBsWindow | cartrdBsRam | cartrdBsOpenLo | cartrdBsOpenHi | kmrd =>
    exact read_writeIe x h
  case buswrKm | buswrIf | kmwr | tick | reset | keyUnrecognized | irqreq | ifclr | cartwrNb | cartwrBsRomsel |
      cartwrBsRamsel | cartwrBsNone6 | cartwrBsNoneLo | cartwrBsNoneHi => exact write_writeIe x h rfl
  case buswrCartRom a v | buswrCartRam a v => exact write_writeIe x h (cartWrite_writeIe x s a v)
  case buswrUnclaimedLo a v | buswrUnclaimedHi a v => exact update_writeIe x h (unclaimedWrite_writeIe x s a v)
  case keyUp | keyDown | keyLeft | keyRight | keyA | keyB | keyStart | keySelect =>
    exact write_writeIe x h (pressKey_writeIe x s _)
  case save => exact update_writeIe x h (saveRam_writeIe x s)
  case load => exact update_writeIe x h (loadRam_writeIe x s)
  case cartwrBsRamen _ v => exact write_writeIe x h (bsWriteRamEnable_writeIe x s v)
  case cartwrBsRam a v => exact write_writeIe x h (bsWriteRam_writeIe x s a v)
  case invalid => exact update_writeIe x h rfl

end

/-- Settles O41: the bus write of `0xFFFF` leaves `IE` at its datum from any `IE`; every other operation keeps whatever
`IE` there is. -/
theorem interruptEnableIsNotConsulted : Obligations.InterruptEnableIsNotConsulted := by
  intro i s t x hread h
  by_cases hwrite : ∃ v, i = .buswrIe v
  · obtain ⟨v, rfl⟩ := hwrite
    obtain ⟨hf, ht⟩ := (whileRunning_next _ _ _).1 h
    cases ht
    exact ⟨_, write_goes_on (s := writeIe x s) hf (writeIe v (writeIe x s)), rfl⟩
  · exact ⟨_, exec_writeIe x h hread fun v hv => hwrite ⟨v, hv⟩, rfl⟩

end Sys2Proof.Machine
end

section
/-! PROOFS. The family of 44_keymatrix.md: key events (R207, R216), reads and writes of the KeyMatrix (R202, R204), and
what reaches the row registers (R204, R206). -/

namespace Sys2Proof.Machine

/-! ### Key events -/

/-- A recognized key's operation performs the press of its key. -/
theorem exec_of_pressedKey {i : Instr} {k : Key} (h : i.pressedKey = some k) (s : State) :
    exec i s = whileRunning s (finish (pressKey k s)) := by
  unfold Instr.pressedKey at h
  split at h
  case h_9 => cases h
  all_goals
    cases h
    rfl

/-- Settles O33: the eight operations press their keys, and a press clears the bit at the key's position alone. -/
theorem keyEventClearsItsOneBit : Obligations.KeyEventClearsItsOneBit := by
  intro s i k hf hmem
  have hkey : i.pressedKey = some k := by
    have hall : ∀ e ∈ [(Instr.keyUp, Key.up), (.keyDown, .down), (.keyLeft, .left), (.keyRight, .right), (.keyA, .a),
        (.keyB, .b), (.keyStart, .start), (.keySelect, .select)], e.1.pressedKey = some e.2 := by decide
    exact hall (i, k) hmem
  refine ⟨(pressKey k s).reply .nothing, ?_, ?_, fun r j => ?_⟩
  · rw [exec_of_pressedKey hkey, write_goes_on hf]
  · rw [pressKey_eq]
    rfl
  · have hbit : (((pressKey k s).reply .nothing).row r).getLsbD j =
        ((s.row r).getLsbD j && !decide (s.params.keymap.pos k = ⟨r, j⟩)) := row_pressKey k s r j
    rw [hbit]
    by_cases hpos : s.params.keymap.pos k = ⟨r, j⟩ <;> simp [hpos]

/-- Settles O34: the request is all that an unrecognized token does, whatever its code. -/
theorem unrecognizedTokenOnlyInterrupts : Obligations.UnrecognizedTokenOnlyInterrupts :=
  fun s _ hf => write_goes_on hf (requestInterrupt maskJoypad s)

/-! ### What reaches the row registers -/

/-- Of all effects, a press of a recognized key and a release alone reach the rows (44_keymatrix.md R206). -/
theorem Effect.rows_cases {s t : State} {i : Instr} (e : Effect s i t) :
    (t.row0 = s.row0 ∧ t.row1 = s.row1) ∨ (∃ k, i.pressedKey = some k) ∨ releasesKeys i = true := by
  cases e with
  | press _ k hi => exact .inr (.inl ⟨k, hi⟩)
  | releases _ hi => exact .inr (.inr hi)
  | busCart _ a v =>
    obtain ⟨-, -, hrow0, hrow1, -⟩ := cartWrite_frame a v s
    exact .inl ⟨hrow0, hrow1⟩
  | saves => rcases saveRam_cases s with ⟨r, heq⟩ | ⟨-, -, -, heq⟩ <;> rw [heq] <;> exact .inl ⟨rfl, rfl⟩
  | loads => rcases loadRam_cases s with ⟨r, heq⟩ | ⟨-, -, -, m, -, heq⟩ <;> rw [heq] <;> exact .inl ⟨rfl, rfl⟩
  | ramEnable a v =>
    rcases bsWriteRamEnable_cases v s with ⟨-, heq⟩ | ⟨-, heq⟩ <;> rw [heq] <;> exact .inl ⟨rfl, rfl⟩
  | ramWrite a v => rcases bsWriteRam_cases a v s with ⟨-, heq⟩ | ⟨-, heq⟩ <;> rw [heq] <;> exact .inl ⟨rfl, rfl⟩
  | answers | external | fatalCart | fatalBus | column | writesIf | writesIe | unknownKey | requests | clears
  | romSelect | ramSelect => exact .inl ⟨rfl, rfl⟩

/-- Settles O50: a press comes by the key port, a release by the tick or the reset port. -/
theorem rowsChangeOnlyByKeysAndResets : Obligations.RowsChangeOnlyByKeysAndResets := by
  intro i s t h hne
  obtain ⟨-, e⟩ := exec_next h
  rcases e.rows_cases with ⟨hrow0, hrow1⟩ | ⟨k, hpress⟩ | hrelease
  · exact absurd hne (not_or.2 ⟨not_not.2 hrow0, not_not.2 hrow1⟩)
  · exact .inl (portOf_of_pressedKey hpress)
  · exact .inr (portOf_of_releasesKeys hrelease)

/-! ### Reads and writes of the device -/

section
variable {s : State}

/-- `SEL_ROW1` is tested first, so it exposes row 1 even where the two codes agree (44_keymatrix.md R202). -/
theorem kmRead_row1 (h1 : s.colSel = s.params.selRow1) : kmRead s = s.row1.setWidth 8 :=
  if_pos h1

theorem kmRead_row0 (h0 : s.colSel = s.params.selRow0) (h1 : s.colSel ≠ s.params.selRow1) :
    kmRead s = s.row0.setWidth 8 := by
  rw [kmRead, if_neg h1, if_pos h0]

theorem kmRead_unselected (h0 : s.colSel ≠ s.params.selRow0) (h1 : s.colSel ≠ s.params.selRow1) : kmRead s = 0x00 := by
  rw [kmRead, if_neg h1, if_neg h0]

end

/-- A row is exposed as the number it is (92_eei_decisions.md D23). -/
theorem toNat_rowByte (row : BitVec 4) : (row.setWidth 8 : Byte).toNat = row.toNat :=
  BitVec.toNat_setWidth_of_le (by decide)

/-- Settles O31: both ports answer `kmRead`, which depends on the select alone. -/
theorem keyMatrixReadExposesTheSelectedRow : Obligations.KeyMatrixReadExposesTheSelectedRow := by
  intro s a i hf hsel hi
  have hexec : exec i s = .next (s.reply (.byte (kmRead s))) := by
    rcases hi with rfl | rfl <;> exact read_answers_byte hf rfl
  refine ⟨kmRead s, hexec, fun h0 => ?_, fun h1 => ?_, kmRead_unselected⟩
  · have h1 : s.colSel ≠ s.params.selRow1 := h0 ▸ hsel
    rw [kmRead_row0 h0 h1, toNat_rowByte]
  · rw [kmRead_row1 h1, toNat_rowByte]

/-- Settles O32: both ports write the select and answer nothing. -/
theorem keyMatrixWriteSelectsTheColumn : Obligations.KeyMatrixWriteSelectsTheColumn := by
  intro s a v i hf hi
  rcases hi with rfl | rfl <;> exact write_goes_on hf (kmWrite v s)

end Sys2Proof.Machine
end

section
/-! PROOFS. The family of 45_dispatcher_tick.md: the tick (R231), and that the row bits are the presses since the last
release, no clear lost and none made up (R233). -/

namespace Sys2Proof.Machine

/-! ### Releases -/

/-- `TICK` and `RESET` both perform the KeyMatrix's `reset()` (92_eei_decisions.md D24). -/
theorem exec_of_releasesKeys {i : Instr} (h : releasesKeys i = true) (s : State) :
    exec i s = whileRunning s (finish (keyMatrixReset s)) := by
  unfold releasesKeys at h
  split at h
  case h_3 => cases h
  all_goals rfl

/-- Settles O36: the tick is a release, and nothing else. -/
theorem tickRestoresTheKeyMatrix : Obligations.TickRestoresTheKeyMatrix :=
  fun s hf => (exec_of_releasesKeys rfl s).trans (write_goes_on hf (keyMatrixReset s))

/-- No key is a release: the two come by different ports. -/
theorem releasesKeys_eq_false_of_pressedKey {i : Instr} {k : Key} (h : i.pressedKey = some k) :
    releasesKeys i = false := by
  by_contra hrel
  have hport := portOf_of_releasesKeys (Bool.eq_true_of_not_eq_false hrel)
  rw [portOf_of_pressedKey h] at hport
  rcases hport with hp | hp <;> cases hp

theorem getLsbD_row_of_released {s : State} (h0 : s.row0 = 0xF) (h1 : s.row1 = 0xF) (r : Fin 2) (j : Fin 4) :
    (s.row r).getLsbD j = true := by
  have hrow : s.row r = 0xF := by rw [State.row, h0, h1, ite_self]
  have hbits : ∀ j : Fin 4, (0xF#4).getLsbD j = true := by decide
  rw [hrow]
  exact hbits j

/-! ### The row bits after one operation, and after a sequence -/

/-- One operation: a bit is 0 after it when it presses a key of that bit, or when the bit was 0 and it releases
nothing. -/
theorem rowBit_exec {i : Instr} {s t : State} (h : exec i s = .next t) (r : Fin 2) (j : Fin 4) :
    (t.row r).getLsbD j = false ↔ (∃ k, s.params.keymap.pos k = ⟨r, j⟩ ∧ i.pressedKey = some k) ∨
      ((s.row r).getLsbD j = false ∧ releasesKeys i = false) := by
  cases hpress : i.pressedKey with
  | some k =>
    rw [exec_of_pressedKey hpress, whileRunning_next] at h
    obtain ⟨-, h⟩ := h
    cases h
    have hbit : (((pressKey k s).reply .nothing).row r).getLsbD j =
        ((s.row r).getLsbD j && !decide (s.params.keymap.pos k = ⟨r, j⟩)) := row_pressKey k s r j
    rw [hbit]
    by_cases hpos : s.params.keymap.pos k = ⟨r, j⟩ <;> simp [hpos, releasesKeys_eq_false_of_pressedKey hpress]
  | none =>
    cases hrel : releasesKeys i with
    | true =>
      rw [exec_of_releasesKeys hrel, whileRunning_next] at h
      obtain ⟨-, h⟩ := h
      cases h
      have hbit := getLsbD_row_of_released (s := (keyMatrixReset s).reply .nothing) rfl rfl r j
      simp [hbit]
    | false =>
      obtain ⟨-, e⟩ := exec_next h
      rcases e.rows_cases with ⟨hrow0, hrow1⟩ | ⟨k, hk⟩ | hr
      · simp [State.row, hrow0, hrow1]
      · cases hpress.symm.trans hk
      · cases hrel.symm.trans hr

/-- Some key of a position is pressed and not released: later in the history, or by its first operation. -/
theorem exists_pressedSinceRelease_cons (m : KeyMap) (p : KeyPos) (i : Instr) (history : List Instr) :
    (∃ k, m.pos k = p ∧ pressedSinceRelease (i :: history) k) ↔
      (∃ k, m.pos k = p ∧ pressedSinceRelease history k) ∨
      ((∃ k, m.pos k = p ∧ i.pressedKey = some k) ∧ ∀ i' ∈ history, releasesKeys i' = false) := by
  simp only [pressedSinceRelease_cons, and_or_left, exists_or, ← and_assoc, exists_and_right]

/-- A sequence of operations from any rows: a bit is 0 after it when a press since the last release explains it, or when
it was 0 before and nothing is released. -/
theorem rowBit_perform {rs : List Request} {s t : State} (h : perform rs s = .next t) (r : Fin 2) (j : Fin 4) :
    (t.row r).getLsbD j = false ↔
      (∃ k, s.params.keymap.pos k = ⟨r, j⟩ ∧ pressedSinceRelease (rs.map fun q => decode s.params q.word) k) ∨
      ((s.row r).getLsbD j = false ∧ ∀ i ∈ rs.map fun q => decode s.params q.word, releasesKeys i = false) := by
  induction rs generalizing s with
  | nil =>
    cases h
    simp [pressedSinceRelease]
  | cons q rs ih =>
    obtain ⟨u, hexec, hrest⟩ := perform_cons_next h
    have hparams : u.params = s.params := (exec_next hexec).2.params_eq
    have hbit : (u.row r).getLsbD j = false ↔
        (∃ k, s.params.keymap.pos k = ⟨r, j⟩ ∧ (decode s.params q.word).pressedKey = some k) ∨
        ((s.row r).getLsbD j = false ∧ releasesKeys (decode s.params q.word) = false) := rowBit_exec hexec r j
    rw [ih hrest, hparams, hbit, List.map_cons, exists_pressedSinceRelease_cons, List.forall_mem_cons, or_and_right,
      or_assoc, and_assoc]

/-- Settles O37: with all keys released before the sequence no bit is 0 but by a press of it. -/
theorem rowBitsAreExplainedByPresses : Obligations.RowBitsAreExplainedByPresses := by
  intro rs s t h0 h1 h r j
  rw [rowBit_perform h r j, getLsbD_row_of_released h0 h1]
  simp

end Sys2Proof.Machine
end

section
/-! PROOFS. The family of 46_bus_router.md: a bus access is the device access the router's tests select (R241, R248), and
what that access is in each range (R242 to R244, R246, R247, R249, R251, R253, R254). -/

namespace Sys2Proof.Machine

variable {s : State} {a : Addr}

/-! ### The router's branches

The three exact addresses come first, then the cartridge's two ranges, then the rest. -/

theorem busRead_keyMatrix (hkm : a = s.params.keymatrixAddr) : busRead s a = .byte (kmRead s) :=
  if_pos hkm

theorem busRead_if (hkm : a ≠ s.params.keymatrixAddr) (hif : a = 0xFF0F) : busRead s a = .byte s.ifReg := by
  rw [busRead, if_neg hkm, if_pos hif]

theorem busRead_ie (hkm : a ≠ s.params.keymatrixAddr) (hie : a = 0xFFFF) : busRead s a = .byte s.ieReg := by
  rw [busRead, if_neg hkm, if_neg (by rw [hie]; decide), if_pos hie]

theorem busWrite_keyMatrix (hkm : a = s.params.keymatrixAddr) (v : Byte) :
    busWrite a v s = (kmWrite v s).reply .nothing :=
  if_pos hkm

theorem busWrite_if (hkm : a ≠ s.params.keymatrixAddr) (hif : a = 0xFF0F) (v : Byte) :
    busWrite a v s = (writeIf v s).reply .nothing := by
  rw [busWrite, if_neg hkm, if_pos hif]

theorem busWrite_ie (hkm : a ≠ s.params.keymatrixAddr) (hie : a = 0xFFFF) (v : Byte) :
    busWrite a v s = (writeIe v s).reply .nothing := by
  rw [busWrite, if_neg hkm, if_neg (by rw [hie]; decide), if_pos hie]

section
variable (hkm : a ≠ s.params.keymatrixAddr) (hif : a ≠ 0xFF0F) (hie : a ≠ 0xFFFF)
include hkm hif hie

theorem busRead_cart (ha : routedToCart a = true) : busRead s a = cartRead s a := by
  rw [busRead, if_neg hkm, if_neg hif, if_neg hie, if_pos ha]

theorem busRead_unclaimed (ha : ¬ routedToCart a = true) : busRead s a = unclaimedRead s a := by
  rw [busRead, if_neg hkm, if_neg hif, if_neg hie, if_neg ha]

theorem busWrite_cart (ha : routedToCart a = true) (v : Byte) :
    busWrite a v s = (cartWrite a v s).reply .nothing := by
  rw [busWrite, if_neg hkm, if_neg hif, if_neg hie, if_pos ha]

theorem busWrite_unclaimed (ha : ¬ routedToCart a = true) (v : Byte) :
    busWrite a v s = unclaimedWrite a v s := by
  rw [busWrite, if_neg hkm, if_neg hif, if_neg hie, if_neg ha]

end

/-! ### The decoder's ranges are the router's -/

theorem routedToCart_of_rom (ha : a &&& 0x8000 = 0x0000) : routedToCart a = true :=
  (routedToCart_iff a).2 (.inl ((range_8000_0000 a).1 ha))

theorem routedToCart_of_ram (ha : a &&& 0xE000 = 0xA000) : routedToCart a = true :=
  (routedToCart_iff a).2 (.inr ((range_E000_A000 a).1 ha))

theorem not_routedToCart_of_8000 (ha : a &&& 0xE000 = 0x8000) : ¬ routedToCart a = true := by
  rw [range_E000_8000] at ha
  rw [routedToCart_iff]
  omega

theorem not_routedToCart_of_C000 (ha : a &&& 0xC000 = 0xC000) : ¬ routedToCart a = true := by
  rw [range_C000_C000] at ha
  rw [routedToCart_iff]
  omega

/-! ### Decoded bus accesses -/

/-- The operation a bus read decodes to is `BusRead`: each row's meaning is the branch of its address. -/
theorem exec_decodeBusRead (hf : s.fault = none) (a : Addr) :
    exec (decodeBusRead s.params a) s = finishRead s (busRead s a) := by
  rcases decodeBusRead_cases s.params a with ⟨hkm, h⟩ | ⟨hkm, hif, h⟩ | ⟨hkm, hie, h⟩ |
    ⟨hkm, hif, hie, ⟨ha, h⟩ | ⟨ha, h⟩ | ⟨ha, h⟩ | ⟨ha, h⟩⟩ <;> rw [h] <;>
    refine (whileRunning_running s _ hf).trans (congrArg _ (Eq.symm ?_))
  · exact busRead_keyMatrix hkm
  · exact busRead_if hkm hif
  · exact busRead_ie hkm hie
  · exact busRead_cart hkm hif hie (routedToCart_of_rom ha)
  · exact busRead_cart hkm hif hie (routedToCart_of_ram ha)
  · exact busRead_unclaimed hkm hif hie (not_routedToCart_of_8000 ha)
  · exact busRead_unclaimed hkm hif hie (not_routedToCart_of_C000 ha)

/-- The operation a bus write decodes to is `BusWrite`: each row's meaning is the branch of its address. -/
theorem exec_decodeBusWrite (hf : s.fault = none) (a : Addr) (v : Byte) :
    exec (decodeBusWrite s.params a v) s = .next (busWrite a v s) := by
  rcases decodeBusWrite_cases s.params a v with ⟨hkm, h⟩ | ⟨hkm, hif, h⟩ | ⟨hkm, hie, h⟩ |
    ⟨hkm, hif, hie, ⟨ha, h⟩ | ⟨ha, h⟩ | ⟨ha, h⟩ | ⟨ha, h⟩⟩ <;> rw [h] <;>
    refine (whileRunning_running s _ hf).trans (congrArg Host.Outcome.next (Eq.symm ?_))
  · exact busWrite_keyMatrix hkm v
  · exact busWrite_if hkm hif v
  · exact busWrite_ie hkm hie v
  · exact busWrite_cart hkm hif hie (routedToCart_of_rom ha) v
  · exact busWrite_cart hkm hif hie (routedToCart_of_ram ha) v
  · exact busWrite_unclaimed hkm hif hie (not_routedToCart_of_8000 ha) v
  · exact busWrite_unclaimed hkm hif hie (not_routedToCart_of_C000 ha) v

/-- Settles O23: kind `0x0` is the router's decode, which takes no datum. -/
theorem busReadFollowsTheRouter : Obligations.BusReadFollowsTheRouter := by
  intro s a d hf
  rw [decode_word]
  exact exec_decodeBusRead hf a

/-- Settles O24: kind `0x1` is the router's decode with the datum. -/
theorem busWriteFollowsTheRouter : Obligations.BusWriteFollowsTheRouter := by
  intro s a v hf
  rw [decode_word]
  exact exec_decodeBusWrite hf a v

/-! ### The cartridge through the router -/

/-- `CartRead` of the lower 32 KiB in a sound state: the flat image on NoBanking, bank 0 and the selected bank on
BankSwitching (40_cartridge_nobanking.md R121, 41_cartridge_bankswitching.md R141, R142). -/
theorem State.Inv.cartRead_rom (h : s.Inv) (ha : a &&& 0x8000 = 0x0000) :
    cartRead s a = .byte (s.params.image.read
      (if s.params.variant = .noBanking ∨ a.toNat < 0x4000 then a.toNat
       else s.romSel.toNat * 0x4000 + (a.toNat - 0x4000))) := by
  have hlow := (range_8000_0000 a).1 ha
  cases hv : s.params.variant with
  | noBanking =>
    rw [if_pos (.inl rfl), cartRead_noBanking_rom hv ha]
    exact readImage_byte (lt_imageSize_noBanking hv hlow)
  | bankSwitching =>
    by_cases hbank0 : a.toNat < 0x4000
    · have hle : a.toNat ≤ 0x3FFF := Nat.le_of_lt_succ hbank0
      rw [if_pos (.inr hbank0), cartRead_bank0 hv ((range_C000_0000 a).2 hle)]
      exact readImage_byte (h.lt_imageSize_bank0 hv hle)
    · have hge : 0x4000 ≤ a.toNat := Nat.le_of_not_lt hbank0
      rw [if_neg (by simp [hbank0]), cartRead_window hv ((range_C000_4000 a).2 ⟨hge, hlow⟩),
        ← windowImageOffset_eq s.romSel a hge hlow]
      exact readImage_byte (h.windowImageOffset_lt_imageSize hv a)

/-- Settles O26: the bus read is `CartRead`, in bounds by the invariants. -/
theorem busReadOfCartridgeRom : Obligations.BusReadOfCartridgeRom :=
  fun _ _ hf h ha => read_answers_byte hf (h.cartRead_rom ha)

/-- The RAM window lies in the upper half, where a NoBanking cartridge holds nothing (40_cartridge_nobanking.md R122). -/
theorem and_8000_of_ramWindow (ha : a &&& 0xE000 = 0xA000) : a &&& 0x8000 = 0x8000 := by
  rw [range_E000_A000] at ha
  rw [range_8000_8000]
  omega

/-- Settles O27: the bus read is `CartRead`, on either variant. -/
theorem busReadOfRamWindow : Obligations.BusReadOfRamWindow := by
  intro s a hf ha
  refine ⟨fun hv => exec_busrdCartRam hf hv ha, fun hv => ?_⟩
  rw [exec, execBusrdCartRam, whileRunning_running _ _ hf, cartRead_noBanking_fatal hv (and_8000_of_ramWindow ha)]
  rfl

/-- Kind `0xB` performs `CartWrite` (R120, R140). -/
theorem exec_cartridge_port_write (hf : s.fault = none) (a : Addr) (v : Byte) :
    exec (decode s.params (word 0xB a v)) s = .next ((cartWrite a v s).reply .nothing) :=
  (cartridgePortFollowsTheRanges s a v hf).2

/-- Settles O28: both ports perform `CartWrite` and answer nothing. -/
theorem busWriteEqualsCartridgeWrite : Obligations.BusWriteEqualsCartridgeWrite :=
  fun s a v hf =>
    ⟨fun _ => ⟨_, write_goes_on hf (cartWrite a v s), exec_cartridge_port_write hf a v⟩,
     fun _ => ⟨_, write_goes_on hf (cartWrite a v s), exec_cartridge_port_write hf a v⟩⟩

/-! ### Unclaimed addresses and the interrupt registers -/

/-- Both unclaimed ranges read alike and write alike. -/
theorem exec_unclaimed (hf : s.fault = none) {v : Byte} {rd wr : Instr}
    (h : (rd = .busrdUnclaimedLo a ∧ wr = .buswrUnclaimedLo a v) ∨
      (rd = .busrdUnclaimedHi a ∧ wr = .buswrUnclaimedHi a v)) :
    exec rd s = finishRead s (unclaimedRead s a) ∧ exec wr s = .next (unclaimedWrite a v s) := by
  rcases h with ⟨rfl, rfl⟩ | ⟨rfl, rfl⟩ <;> exact ⟨whileRunning_running s _ hf, whileRunning_running s _ hf⟩

/-- Settles O29: the accesses branch on `EXT_MAP` alone. -/
theorem unclaimedAddresses : Obligations.UnclaimedAddresses := by
  intro s a v rd wr hf h
  obtain ⟨hread, hwrite⟩ := exec_unclaimed hf h
  rw [hread, hwrite]
  refine ⟨fun hout => ?_, fun hext => ?_⟩
  · rw [unclaimedRead, if_neg hout, unclaimedWrite, if_neg hout]
    exact ⟨rfl, rfl⟩
  · rw [unclaimedRead, if_pos hext, unclaimedWrite, if_pos hext]
    exact ⟨rfl, rfl⟩

/-- Settles O30: two reads that come to a byte, and two writes of one register. -/
theorem busAccessOfInterruptRegisters : Obligations.BusAccessOfInterruptRegisters :=
  fun s v hf =>
    ⟨read_answers_byte hf rfl, read_answers_byte hf rfl, write_goes_on hf (writeIf v s), write_goes_on hf (writeIe v s)⟩

end Sys2Proof.Machine
end

section
/-! PROOFS. The family of 60_exceptions.md: the one cause of the fatal error (R271), the terminal block (R272), and the
silent no-ops (R273). -/

namespace Sys2Proof.Machine

variable {s t : State} {i : Instr}

/-! ### The terminal block -/

/-- The meaning of every operation stands behind the guard on a terminal block. -/
theorem exec_eq_whileRunning (i : Instr) (s : State) : ∃ o, exec i s = whileRunning s o := by
  cases i <;> exact ⟨_, rfl⟩

/-- Settles O9: operations and steps alike stand behind the guard. -/
theorem terminalBlockRefusesEverything : Obligations.TerminalBlockRefusesEverything := by
  intro i s f hf
  obtain ⟨o, hexec⟩ := exec_eq_whileRunning i s
  exact ⟨hexec.trans (whileRunning_terminal s o f hf), whileRunning_terminal s _ f hf⟩

/-! ### What leaves `fault` as it is -/

@[simp] theorem cartWrite_fault (a : Addr) (v : Byte) (s : State) : (cartWrite a v s).fault = s.fault := by
  obtain ⟨-, -, -, -, -, -, -, hfault, -⟩ := cartWrite_frame a v s
  exact hfault

@[simp] theorem pressKey_fault (k : Key) (s : State) : (pressKey k s).fault = s.fault := by
  rw [pressKey_eq]

@[simp] theorem saveRam_fault (s : State) : (saveRam s).fault = s.fault := by
  rcases saveRam_cases s with ⟨r, heq⟩ | ⟨-, -, -, heq⟩ <;> rw [heq] <;> rfl

@[simp] theorem loadRam_fault (s : State) : (loadRam s).fault = s.fault := by
  rcases loadRam_cases s with ⟨r, heq⟩ | ⟨-, -, -, m, -, heq⟩ <;> rw [heq] <;> rfl

@[simp] theorem bsWriteRamEnable_fault (v : Byte) (s : State) : (bsWriteRamEnable v s).fault = s.fault := by
  rcases bsWriteRamEnable_cases v s with ⟨-, heq⟩ | ⟨-, heq⟩ <;> rw [heq]

/-! ### The one cause of the fatal error -/

/-- A well-formed read of NoBanking's fatal range exists on NoBanking alone and lies at `0x8000` or above. -/
theorem of_wellFormed_cartrdNbFatal {p : Params} {a : Addr} (h : (Instr.cartrdNbFatal a).wellFormed p = true) :
    p.variant = .noBanking ∧ 0x8000 ≤ a.toNat := by
  simp only [Instr.wellFormed, Bool.and_eq_true, beq_iff_eq] at h
  exact h.imp_right (range_8000_8000 a).1

/-- A well-formed bus read of cartridge ROM lies below `0x8000`. -/
theorem le_of_wellFormed_busrdCartRom {p : Params} {a : Addr} (h : (Instr.busrdCartRom a).wellFormed p = true) :
    a.toNat ≤ 0x7FFF := by
  simp only [Instr.wellFormed, Bool.and_eq_true, beq_iff_eq] at h
  exact (range_8000_0000 a).1 h.1

/-- A well-formed operation leaves `fault` as it is, or is a NoBanking read at `0x8000` or above, which records its
address there and changes nothing else. -/
theorem Effect.fault_cases (e : Effect s i t) (hi : i.wellFormed s.params = true) :
    t.fault = s.fault ∨
    (s.params.variant = .noBanking ∧ ∃ a : Addr, 0x8000 ≤ a.toNat ∧ (i = .cartrdNbFatal a ∨ i = .busrdCartRam a) ∧
      t = { s with fault := some ⟨.noBankingReadOutOfRange, a⟩, out := ⟨.nothing, none⟩ }) := by
  cases e with
  | fatalCart a =>
    obtain ⟨hv, ha⟩ := of_wellFormed_cartrdNbFatal hi
    exact .inr ⟨hv, a, ha, .inl rfl, rfl⟩
  | fatalBus _ a hbus hv ha =>
    rcases hbus with rfl | rfl
    · have hle := le_of_wellFormed_busrdCartRom hi
      omega
    · exact .inr ⟨hv, a, ha, .inr rfl, rfl⟩
  | answers | external | column | writesIf | writesIe | busCart | press | unknownKey | releases | saves | loads
  | requests | clears | ramEnable | romSelect | ramSelect | ramWrite => exact .inl (by simp)

/-- Settles O51: an operation that goes on started on a running block, so a `fault` after it is the operation's own. -/
theorem fatalErrorHasOneCause : Obligations.FatalErrorHasOneCause := by
  intro i s t hi h hfault
  obtain ⟨hf, e⟩ := exec_next h
  exact (e.fault_cases hi).resolve_left fun hkept => hfault (hkept.trans hf)

/-! ### Silent no-ops

A silent read comes to the byte `0x00`, and a silent write leaves the state as it is. -/

/-- Without RAM the enable flag takes no write (41_cartridge_bankswitching.md R145). -/
theorem bsWriteRamEnable_absent (h : s.params.hasRam = false) (v : Byte) : bsWriteRamEnable v s = s :=
  if_neg (ne_true_of_eq_false h)

/-- Closed RAM reads `0x00` (41_cartridge_bankswitching.md R143). -/
theorem bsReadRam_closed (h : s.ramOpen = false) (a : Addr) : bsReadRam s a = .byte 0x00 :=
  if_neg (ne_true_of_eq_false h)

/-- RAM is closed, as the class of silent no-ops spells it. -/
theorem ramOpen_eq_false_of_silent (h : (!(s.params.hasRam && s.ramEn)) = true) : s.ramOpen = false :=
  (Bool.not_eq_true' _).mp h

/-- `CartRead` of the RAM window while RAM is closed (46_bus_router.md R243). -/
theorem cartRead_of_silent {a : Addr} (h : silentNoOp s (.busrdCartRam a) = true) : cartRead s a = .byte 0x00 := by
  simp only [silentNoOp, Bool.and_eq_true, beq_iff_eq] at h
  obtain ⟨⟨hv, ha⟩, hclosed⟩ := h
  rw [cartRead_ram hv ha, bsReadRam_closed (ramOpen_eq_false_of_silent hclosed)]

/-- `CartWrite` of the silent class: NoBanking, `0x6000` to `0x7FFF`, an absent RAM's enable flag, and closed RAM. -/
theorem cartWrite_of_silent {a : Addr} {v : Byte}
    (h : silentNoOp s (.buswrCartRom a v) = true ∨ silentNoOp s (.buswrCartRam a v) = true) : cartWrite a v s = s := by
  cases hv : s.params.variant with
  | noBanking => exact cartWrite_noBanking hv a v
  | bankSwitching =>
    simp only [silentNoOp, hv, Bool.or_eq_true, Bool.and_eq_true, beq_iff_eq, reduceCtorEq, false_or] at h
    rcases h with (ha | ⟨ha, habsent⟩) | ⟨ha, hclosed⟩
    · exact cartWrite_none6 hv ha v
    · rw [cartWrite_ramEnable hv ha, bsWriteRamEnable_absent ((Bool.not_eq_true' _).mp habsent)]
    · rw [cartWrite_ram hv ha, bsWriteRam_closed (ramOpen_eq_false_of_silent hclosed)]

/-- A write of a running block that leaves the state as it is answers nothing and does nothing. -/
theorem write_does_nothing (hf : s.fault = none) {write : State} (h : write = s) :
    whileRunning s (finish write) = .next (s.reply .nothing) :=
  h ▸ write_goes_on hf write

/-- Settles O47: each silent read comes to `0x00` and each silent write to the state itself; the other operations are
not of the class. -/
theorem silentNoOpsReturnZeroOrNothing : Obligations.SilentNoOpsReturnZeroOrNothing := by
  intro i s hf h
  cases i
  case cartwrNb | cartwrBsNone6 | cartwrBsNoneLo | cartwrBsNoneHi => exact write_does_nothing hf rfl
  case cartrdBsOpenLo | cartrdBsOpenHi => exact read_answers_byte hf rfl
  case cartwrBsRamen _ v => exact write_does_nothing hf (bsWriteRamEnable_absent ((Bool.not_eq_true' _).mp h) v)
  case cartwrBsRam a v => exact write_does_nothing hf (bsWriteRam_closed (ramOpen_eq_false_of_silent h) a v)
  case cartrdBsRam a => exact read_answers_byte hf (bsReadRam_closed (ramOpen_eq_false_of_silent h) a)
  case buswrCartRom => exact write_does_nothing hf (cartWrite_of_silent (.inl h))
  case buswrCartRam => exact write_does_nothing hf (cartWrite_of_silent (.inr h))
  case busrdCartRam => exact read_answers_byte hf (cartRead_of_silent h)
  case busrdUnclaimedLo | busrdUnclaimedHi => exact read_answers_byte hf (if_neg (of_decide_eq_true h))
  case buswrUnclaimedLo a v | buswrUnclaimedHi a v =>
    exact (whileRunning_running s _ hf).trans (congrArg _ (if_neg (of_decide_eq_true h)))
  all_goals cases h

end Sys2Proof.Machine
end

section
/-! PROOFS. The decoder and the encoder against each other (30_encoding.md R91 to R98, R108): which operation each row's
own addresses decode to, and what encoding keeps of a decoded word. -/

namespace Sys2Proof.Machine

/-! ### Words the spec writes out, and every word's row -/

/-- Settles O5: the decoder run on each word. -/
theorem wordsOfTheSpecDecode : Obligations.WordsOfTheSpecDecode := by
  unfold Obligations.WordsOfTheSpecDecode
  decide

/-- Settles O3: each table of the decoder keeps to the ranges and the variant of its rows. -/
theorem decodedOperationIsWellFormed : Obligations.DecodedOperationIsWellFormed := wellFormed_decode

/-! ### Encoding a decoded word -/

theorem encode_decodeBusRead (p : Params) (a : Addr) : encode p (decodeBusRead p a) = word 0x0 a 0x00 := by
  rcases decodeBusRead_cases p a with ⟨ha, h⟩ | ⟨-, ha, h⟩ | ⟨-, ha, h⟩ |
    ⟨-, -, -, ⟨-, h⟩ | ⟨-, h⟩ | ⟨-, h⟩ | ⟨-, h⟩⟩ <;> rw [h]
  case inl | inr.inl | inr.inr.inl => rw [ha]; rfl
  all_goals rfl

theorem encode_decodeBusWrite (p : Params) (a : Addr) (v : Byte) :
    encode p (decodeBusWrite p a v) = word 0x1 a v := by
  rcases decodeBusWrite_cases p a v with ⟨ha, h⟩ | ⟨-, ha, h⟩ | ⟨-, ha, h⟩ |
    ⟨-, -, -, ⟨-, h⟩ | ⟨-, h⟩ | ⟨-, h⟩ | ⟨-, h⟩⟩ <;> rw [h]
  case inl | inr.inl | inr.inr.inl => rw [ha]; rfl
  all_goals rfl

/-- A key's word carries its code as the whole datum (30_encoding.md R98). -/
theorem encode_decodeKey (p : Params) (c : BitVec 4) :
    encode p (decodeKey c) = word 0x2 0x0000 (c.setWidth 8) := by
  rcases kind_cases c with h | h | h | h | h | h | h | h | h | h | h | h | h | h | h | h <;> rw [h] <;> rfl

theorem encode_decodeCartRead (p : Params) (a : Addr) : encode p (decodeCartRead p a) = word 0xA a 0x00 := by
  cases hv : p.variant with
  | noBanking => rcases decodeCartRead_noBanking hv a with ⟨-, h⟩ | ⟨-, h⟩ <;> rw [h] <;> rfl
  | bankSwitching =>
    rcases decodeCartRead_bankSwitching hv a with ⟨-, h⟩ | ⟨-, h⟩ | ⟨-, h⟩ | ⟨-, h⟩ | ⟨-, h⟩ <;> rw [h] <;> rfl

theorem encode_decodeCartWrite (p : Params) (a : Addr) (v : Byte) :
    encode p (decodeCartWrite p a v) = word 0xB a v := by
  cases hv : p.variant with
  | noBanking => rw [decodeCartWrite_noBanking hv]; rfl
  | bankSwitching =>
    rcases decodeCartWrite_bankSwitching hv a v with
      ⟨-, h⟩ | ⟨-, h⟩ | ⟨-, h⟩ | ⟨-, h⟩ | ⟨-, h⟩ | ⟨-, h⟩ | ⟨-, h⟩ <;> rw [h] <;> rfl

/-! Each shape of `takenBits`: with both fields, with the address, with the datum, with the key code, with neither. -/

section
variable (k : BitVec 4) (a : Addr) (d : Byte)

/-- Every kind takes the whole of the kind field. -/
theorem word_and_fullKind (ma : Addr) (md : Byte) :
    word k a d &&& word 0xF ma md = word k (a &&& ma) (d &&& md) := by
  have hk : k &&& 0xF = k := BitVec.and_allOnes
  rw [word_and_word, hk]

theorem word_and_addr_data : word k a d &&& word 0xF 0xFFFF 0xFF = word k a d := by
  have ha : a &&& 0xFFFF = a := BitVec.and_allOnes
  have hd : d &&& 0xFF = d := BitVec.and_allOnes
  rw [word_and_fullKind, ha, hd]

theorem word_and_addr : word k a d &&& word 0xF 0xFFFF 0x00 = word k a 0x00 := by
  have ha : a &&& 0xFFFF = a := BitVec.and_allOnes
  have hd : d &&& 0x00 = 0x00 := BitVec.and_zero
  rw [word_and_fullKind, ha, hd]

theorem word_and_data : word k a d &&& word 0xF 0x0000 0xFF = word k 0x0000 d := by
  have ha : a &&& 0x0000 = 0x0000 := BitVec.and_zero
  have hd : d &&& 0xFF = d := BitVec.and_allOnes
  rw [word_and_fullKind, ha, hd]

theorem word_and_code :
    word k a d &&& word 0xF 0x0000 0x0F = word k 0x0000 ((d.extractLsb' 0 4).setWidth 8) := by
  have ha : a &&& 0x0000 = 0x0000 := BitVec.and_zero
  have hd : d &&& 0x0F = (d.extractLsb' 0 4).setWidth 8 := and_0F_eq_code d
  rw [word_and_fullKind, ha, hd]

theorem word_and_kind : word k a d &&& word 0xF 0x0000 0x00 = word k 0x0000 0x00 := by
  have ha : a &&& 0x0000 = 0x0000 := BitVec.and_zero
  have hd : d &&& 0x00 = 0x00 := BitVec.and_zero
  rw [word_and_fullKind, ha, hd]

end

/-- Settles O2: kind by kind, the word a decoded operation is encoded as keeps the fields the kind takes. -/
theorem encodeOfDecodeKeepsTakenBits : Obligations.EncodeOfDecodeKeepsTakenBits := by
  intro p w
  induction w using forall_word with | h k a d => ?_
  rw [decode_word, kindOf_word]
  obtain rfl | rfl | rfl | rfl | rfl | rfl | rfl | rfl | rfl | rfl | rfl | rfl | rfl | rfl | rfl | rfl := kind_cases k
  · exact (encode_decodeBusRead p a).trans (word_and_addr _ a d).symm
  · exact (encode_decodeBusWrite p a d).trans (word_and_addr_data _ a d).symm
  · exact (encode_decodeKey p _).trans (word_and_code _ a d).symm
  iterate 4 exact (word_and_kind _ a d).symm
  iterate 2 exact (word_and_data _ a d).symm
  · exact (word_and_kind _ a d).symm
  · exact (encode_decodeCartRead p a).trans (word_and_addr _ a d).symm
  · exact (encode_decodeCartWrite p a d).trans (word_and_addr_data _ a d).symm
  · exact (word_and_addr _ a d).symm
  · exact (word_and_addr_data _ a d).symm
  iterate 2 exact (word_and_kind _ a d).symm

/-! ### The rows' addresses through the router's decode

A row's test passes at its addresses, and the tests before it fail there: the three exact addresses are apart, and the
ranges are told apart by the octants they are made of. -/

/-- The octants at the top of the address space. -/
theorem octant_of_C000 {a : Addr} (h : a &&& 0xC000#16 = 0xC000#16) :
    a &&& 0xE000#16 = 0xC000#16 ∨ a &&& 0xE000#16 = 0xE000#16 := by
  rw [and_C000_of_octant] at h
  rcases octant_cases a with ha | ha | ha | ha | ha | ha | ha | ha <;> simp [ha] at h ⊢

/-- What a router row with a range asks of the address. -/
theorem range_of_wellFormed {p : Params} {a x m : Addr} (h : (x == m && !exactAddress p a) = true) :
    x = m ∧ a ≠ p.keymatrixAddr ∧ a ≠ 0xFF0F#16 ∧ a ≠ 0xFFFF#16 := by
  simpa [exactAddress, and_assoc] using h

/-- The KeyMatrix's address is neither interrupt register's. -/
theorem keymatrixAddr_ne {p : Params} (hp : keymatrixAddrOk p.keymatrixAddr = true) :
    p.keymatrixAddr ≠ 0xFF0F ∧ p.keymatrixAddr ≠ 0xFFFF := by
  simp only [keymatrixAddrOk, Bool.and_eq_true, bne_iff_ne] at hp
  exact hp.1

section
variable {p : Params} {a : Addr}

theorem decodeBus_keyMatrix :
    decodeBusRead p p.keymatrixAddr = .busrdKm ∧ ∀ v, decodeBusWrite p p.keymatrixAddr v = .buswrKm v :=
  ⟨if_pos rfl, fun _ => if_pos rfl⟩

theorem decodeBus_if (hp : keymatrixAddrOk p.keymatrixAddr = true) :
    decodeBusRead p 0xFF0F = .busrdIf ∧ ∀ v, decodeBusWrite p 0xFF0F v = .buswrIf v := by
  have ⟨hif, _⟩ := keymatrixAddr_ne hp
  exact ⟨if_neg hif.symm, fun _ => if_neg hif.symm⟩

theorem decodeBus_ie (hp : keymatrixAddrOk p.keymatrixAddr = true) :
    decodeBusRead p 0xFFFF = .busrdIe ∧ ∀ v, decodeBusWrite p 0xFFFF v = .buswrIe v := by
  have ⟨_, hie⟩ := keymatrixAddr_ne hp
  exact ⟨if_neg hie.symm, fun _ => if_neg hie.symm⟩

theorem decodeBus_cartRom (h : (Instr.busrdCartRom a).wellFormed p = true) :
    decodeBusRead p a = .busrdCartRom a ∧ ∀ v, decodeBusWrite p a v = .buswrCartRom a v := by
  obtain ⟨(ha : a &&& 0x8000#16 = 0x0000#16), hkm, hif, hie⟩ := range_of_wellFormed h
  simp [decodeBusRead, decodeBusWrite, hkm, hif, hie, ha]

theorem decodeBus_cartRam (h : (Instr.busrdCartRam a).wellFormed p = true) :
    decodeBusRead p a = .busrdCartRam a ∧ ∀ v, decodeBusWrite p a v = .buswrCartRam a v := by
  obtain ⟨(ha : a &&& 0xE000#16 = 0xA000#16), hkm, hif, hie⟩ := range_of_wellFormed h
  simp [decodeBusRead, decodeBusWrite, hkm, hif, hie, and_8000_of_octant a, ha]

theorem decodeBus_unclaimedLo (h : (Instr.busrdUnclaimedLo a).wellFormed p = true) :
    decodeBusRead p a = .busrdUnclaimedLo a ∧ ∀ v, decodeBusWrite p a v = .buswrUnclaimedLo a v := by
  obtain ⟨(ha : a &&& 0xE000#16 = 0x8000#16), hkm, hif, hie⟩ := range_of_wellFormed h
  simp [decodeBusRead, decodeBusWrite, hkm, hif, hie, and_8000_of_octant a, ha]

theorem decodeBus_unclaimedHi (h : (Instr.busrdUnclaimedHi a).wellFormed p = true) :
    decodeBusRead p a = .busrdUnclaimedHi a ∧ ∀ v, decodeBusWrite p a v = .buswrUnclaimedHi a v := by
  obtain ⟨(ha : a &&& 0xC000#16 = 0xC000#16), hkm, hif, hie⟩ := range_of_wellFormed h
  rcases octant_of_C000 ha with ho | ho <;>
    simp [decodeBusRead, decodeBusWrite, hkm, hif, hie, and_8000_of_octant a, ho]

end

/-! ### The rows' addresses through the cartridge's decode -/

/-- What a cartridge row asks of the variant and of the address. -/
theorem variant_of_wellFormed {p : Params} {v : CartVariant} {x m : Addr}
    (h : (p.variant == v && x == m) = true) : p.variant = v ∧ x = m := by
  simpa using h

section
variable {p : Params} {a : Addr}

theorem decodeCartRead_nbRom (h : (Instr.cartrdNbRom a).wellFormed p = true) :
    decodeCartRead p a = .cartrdNbRom a := by
  obtain ⟨hv, ha⟩ := variant_of_wellFormed h
  rw [decodeCartRead, hv]
  exact if_pos ha

theorem decodeCartRead_nbFatal (h : (Instr.cartrdNbFatal a).wellFormed p = true) :
    decodeCartRead p a = .cartrdNbFatal a := by
  obtain ⟨hv, ha⟩ := variant_of_wellFormed h
  rw [decodeCartRead, hv]
  exact if_neg (by rw [ha]; decide)

theorem decodeCartRead_bsBank0 (h : (Instr.cartrdBsBank0 a).wellFormed p = true) :
    decodeCartRead p a = .cartrdBsBank0 a := by
  obtain ⟨hv, ha⟩ := variant_of_wellFormed h
  rw [decodeCartRead, hv]
  exact if_pos ha

theorem decodeCartRead_bsWindow (h : (Instr.cartrdBsWindow a).wellFormed p = true) :
    decodeCartRead p a = .cartrdBsWindow a := by
  obtain ⟨hv, (ha : a &&& 0xC000#16 = 0x4000#16)⟩ := variant_of_wellFormed h
  simp [decodeCartRead, hv, ha]

theorem decodeCartRead_bsRam (h : (Instr.cartrdBsRam a).wellFormed p = true) :
    decodeCartRead p a = .cartrdBsRam a := by
  obtain ⟨hv, (ha : a &&& 0xE000#16 = 0xA000#16)⟩ := variant_of_wellFormed h
  simp [decodeCartRead, hv, and_C000_of_octant a, ha]

theorem decodeCartRead_bsOpenLo (h : (Instr.cartrdBsOpenLo a).wellFormed p = true) :
    decodeCartRead p a = .cartrdBsOpenLo a := by
  obtain ⟨hv, (ha : a &&& 0xE000#16 = 0x8000#16)⟩ := variant_of_wellFormed h
  simp [decodeCartRead, hv, and_C000_of_octant a, ha]

theorem decodeCartRead_bsOpenHi (h : (Instr.cartrdBsOpenHi a).wellFormed p = true) :
    decodeCartRead p a = .cartrdBsOpenHi a := by
  obtain ⟨hv, (ha : a &&& 0xC000#16 = 0xC000#16)⟩ := variant_of_wellFormed h
  rcases octant_of_C000 ha with ho | ho <;> simp [decodeCartRead, hv, and_C000_of_octant a, ho]

/-- Each test of a write is on the address's octant, so the octant alone decides the row. -/
theorem decodeCartWrite_of_octant {m : Addr} (hv : p.variant = .bankSwitching) (ha : a &&& 0xE000 = m) (v : Byte) :
    decodeCartWrite p a v =
      if m = 0x0000 then .cartwrBsRamen a v
      else if m = 0x2000 then .cartwrBsRomsel a v
      else if m = 0x4000 then .cartwrBsRamsel a v
      else if m = 0x6000 then .cartwrBsNone6 a v
      else if m = 0x8000 then .cartwrBsNoneLo a v
      else if m = 0xA000 then .cartwrBsRam a v
      else .cartwrBsNoneHi a v := by
  rw [decodeCartWrite, hv, ← ha]

theorem decodeCartWrite_bsNoneHi {v : Byte} (h : (Instr.cartwrBsNoneHi a v).wellFormed p = true) :
    decodeCartWrite p a v = .cartwrBsNoneHi a v := by
  obtain ⟨hv, ha⟩ := variant_of_wellFormed h
  rcases octant_of_C000 ha with ho | ho <;> exact decodeCartWrite_of_octant hv ho v

end

/-! ### Decoding an encoded operation -/

/-- The code of an unrecognized key comes back from the datum (30_encoding.md R98). -/
theorem decodeKey_unrecognized (c : BitVec 4) :
    c &&& 0x8 = 0x8 → decodeKey ((c.setWidth 8).extractLsb' 0 4) = .keyUnrecognized c := by
  revert c
  decide

/-- Bit 24 tells the two kinds of `INVALID` apart (30_encoding.md R108). -/
theorem decode_encode_invalid (p : Params) (k : BitVec 1) : decode p (encode p (.invalid k)) = .invalid k := by
  obtain rfl | rfl : k = 0 ∨ k = 1 := by revert k; decide
  all_goals exact decode_word p _ _ _

/-- Settles O1: row by row, the table of the operation's kind finds the row by the address, and the fields come back. -/
theorem decodeOfEncodeIsIdentity : Obligations.DecodeOfEncodeIsIdentity := by
  intro p i hp hw
  have hkm := keymatrixAddrOk_of_validParams hp
  cases i
  case invalid k => exact decode_encode_invalid p k
  all_goals refine (decode_word p _ _ _).trans ?_
  case busrdKm => exact decodeBus_keyMatrix.1
  case busrdIf => exact (decodeBus_if hkm).1
  case busrdIe => exact (decodeBus_ie hkm).1
  case busrdCartRom => exact (decodeBus_cartRom hw).1
  case busrdCartRam => exact (decodeBus_cartRam hw).1
  case busrdUnclaimedLo => exact (decodeBus_unclaimedLo hw).1
  case busrdUnclaimedHi => exact (decodeBus_unclaimedHi hw).1
  case buswrKm v => exact decodeBus_keyMatrix.2 v
  case buswrIf v => exact (decodeBus_if hkm).2 v
  case buswrIe v => exact (decodeBus_ie hkm).2 v
  case buswrCartRom _ v => exact (decodeBus_cartRom hw).2 v
  case buswrCartRam _ v => exact (decodeBus_cartRam hw).2 v
  case buswrUnclaimedLo _ v => exact (decodeBus_unclaimedLo hw).2 v
  case buswrUnclaimedHi _ v => exact (decodeBus_unclaimedHi hw).2 v
  case keyUnrecognized c => exact decodeKey_unrecognized c (beq_iff_eq.1 hw)
  case cartrdNbRom => exact decodeCartRead_nbRom hw
  case cartrdNbFatal => exact decodeCartRead_nbFatal hw
  case cartrdBsBank0 => exact decodeCartRead_bsBank0 hw
  case cartrdBsWindow => exact decodeCartRead_bsWindow hw
  case cartrdBsRam => exact decodeCartRead_bsRam hw
  case cartrdBsOpenLo => exact decodeCartRead_bsOpenLo hw
  case cartrdBsOpenHi => exact decodeCartRead_bsOpenHi hw
  case cartwrNb a v => exact decodeCartWrite_noBanking (beq_iff_eq.1 hw) a v
  case cartwrBsRamen _ v | cartwrBsRomsel _ v | cartwrBsRamsel _ v | cartwrBsNone6 _ v | cartwrBsNoneLo _ v |
      cartwrBsRam _ v =>
    obtain ⟨hv, ha⟩ := variant_of_wellFormed hw
    exact decodeCartWrite_of_octant hv ha v
  case cartwrBsNoneHi => exact decodeCartWrite_bsNoneHi hw
  all_goals rfl

end Sys2Proof.Machine
end
